-- ==== Sys2Proof/Word.lean ====
section
/-!
DEFINITION. The word and byte types of the engine (00_scope.md R8, R11) and the groups of words its datapath holds.
-/

namespace Sys2Proof

/-- A 32-bit unsigned word (R8, R11). Its `+` is the `+32` of R12 and R100: addition modulo 2^32, the carry discarded. -/
abbrev Word := BitVec 32

/-- An 8-bit byte (R11). -/
abbrev Byte := BitVec 8

/-- The eight registers `a..h` of the working vector (R32). -/
structure Work where
  a : Word
  b : Word
  c : Word
  d : Word
  e : Word
  f : Word
  g : Word
  h : Word
  deriving DecidableEq, Repr, Inhabited

/-- The internal registers of the compression datapath: the working vector (R32), the 64-word message
schedule (R33) and the round counter `t` (R34). The host can read none of them. -/
structure Datapath where
  work  : Work
  sched : Vector Word 64
  round : Fin 64
  deriving DecidableEq, Repr, Inhabited

/-- Which draw of a free value stands at a clock edge: the model's own, no state of the hardware. Each engine of a system draws
from a stream of its own (`System.engineAt`) and each of its edges has a number of its own, so no two engines and no two edges
share a draw (DESIGN CHOICE, safe: log entries 1 and 17). -/
structure Draw where
  stream : Nat
  number : Nat
  deriving DecidableEq, Repr, Inhabited

/-- The draw of the engine's next edge. -/
def Draw.next (d : Draw) : Draw := { d with number := d.number + 1 }

end Sys2Proof
end

