-- ==== Sys2Proof/Syntax.lean ====
section
/-!
DEFINITION. The engine's instructions: the four commands of spec/opcode_table.json (30_encoding.md R82).
-/

namespace Sys2Proof

/-- One constructor per row of the opcode table. The one operand field of the encoding is NBYTES of ABSORB, a 3-bit count
(R80, R83). -/
inductive Instr where
  /-- INIT (R160): a new, independent hash. -/
  | init
  /-- ABSORB (R165): append `nbytes` message bytes taken from DATA_IN. -/
  | absorb (nbytes : BitVec 3)
  /-- COMPRESS (R175): compress the block buffer as it stands. -/
  | compress
  /-- FINALIZE (R180): pad, compress the last one or two blocks, and make H the digest. -/
  | finalize
  deriving DecidableEq, Repr

end Sys2Proof
end

