-- ==== Sys2Proof/WellFormed.lean ====
section
/-!
DEFINITION. Which instruction terms stand for a legal command word (30_encoding.md R81).
-/

namespace Sys2Proof

/-- NBYTES of an ABSORB is 1 to 4 (R81, R83); the other three commands have no operand. -/
def Instr.wellFormed : Instr → Bool
  | .init => true
  | .absorb nbytes => decide (1 ≤ nbytes.toNat ∧ nbytes.toNat ≤ 4)
  | .compress => true
  | .finalize => true

end Sys2Proof
end

