-- ==== Sys2Proof/Decode.lean ====
section
/-!
DEFINITION. Command words (30_encoding.md): the fields of format CMDW, the legality test of R81, the decoder, which is total
on the 2^32 words and rejects by name, and after it the encoder.
-/

namespace Sys2Proof

/-- Field OP, bits 3:0 (R80). -/
def opField (v : Word) : BitVec 4 := v.extractLsb' 0 4

/-- Field NBYTES, bits 6:4 (R80). -/
def nbytesField (v : Word) : BitVec 3 := v.extractLsb' 4 3

/-- Field RSVD, bits 31:7 (R80). -/
def rsvdField (v : Word) : BitVec 25 := v.extractLsb' 7 25

/-- `legal(v)` of R81, as it is written there. -/
def legal (v : Word) : Bool :=
  rsvdField v == 0#25 &&
    ((opField v == 0x2#4 && decide (1 ≤ (nbytesField v).toNat) && decide ((nbytesField v).toNat ≤ 4)) ||
      ((opField v == 0x1#4 || opField v == 0x3#4 || opField v == 0x4#4) && nbytesField v == 0#3))

/-- Why a word is no command (the three cases of R84). All three raise ERR_ILLEGAL (R221). -/
inductive DecodeError where
  /-- A bit of RSVD is set. -/
  | reservedBitSet
  /-- OP is 0x0 or 0x5 to 0xF. -/
  | reservedOp
  /-- A legal OP with an NBYTES it does not admit. -/
  | wrongNbytes
  deriving DecidableEq, Repr

/-- The decoder (R80 to R82): it looks at the word alone. -/
def decode (v : Word) : Except DecodeError Instr :=
  if rsvdField v ≠ 0#25 then .error .reservedBitSet
  else if opField v = 0x1#4 then
    if nbytesField v = 0#3 then .ok .init else .error .wrongNbytes
  else if opField v = 0x2#4 then
    if 1 ≤ (nbytesField v).toNat ∧ (nbytesField v).toNat ≤ 4 then .ok (.absorb (nbytesField v))
    else .error .wrongNbytes
  else if opField v = 0x3#4 then
    if nbytesField v = 0#3 then .ok .compress else .error .wrongNbytes
  else if opField v = 0x4#4 then
    if nbytesField v = 0#3 then .ok .finalize else .error .wrongNbytes
  else .error .reservedOp

/-- A CMDW word of the given OP and NBYTES, RSVD zero (R80). -/
def cmdWord (op : BitVec 4) (nbytes : BitVec 3) : Word := 0#25 ++ nbytes ++ op

/-- The encoder, from the opcode map of R82. The word of an ill-formed ABSORB is the illegal word with that NBYTES. -/
def encode : Instr → Word
  | .init => cmdWord 0x1#4 0#3
  | .absorb nbytes => cmdWord 0x2#4 nbytes
  | .compress => cmdWord 0x3#4 0#3
  | .finalize => cmdWord 0x4#4 0#3

/-- The command word that a table row's bits make: the `nbits` low bits of `w`, every bit above them 0. A command is one
32-bit bus word (R86), so there is no byte order to lay it out in (DESIGN CHOICE, log entry 15). -/
def tableWord (nbits w : Nat) : Word := BitVec.ofNat 32 (w % 2 ^ nbits)

/-- The instruction the decoder reads from a table row's word; none where it rejects it or where the row is wider than
the one 32-bit word of a command (R86). -/
def decodeTableWord (nbits w : Nat) : Option Instr :=
  if w % 2 ^ nbits < 2 ^ 32 then
    match decode (tableWord nbits w) with
    | .ok i => some i
    | .error _ => none
  else none

end Sys2Proof
end

