-- ==== Sys2Proof/Machine/Functions.lean ====
section
/-!
DEFINITION. The word functions and the constants of 40_functions.md: byte order, rotate and shift, Ch, Maj, S0, S1, s0, s1,
the initialization vector and the 64 round constants.
-/

namespace Sys2Proof.Machine

/-- `BE32(b0, b1, b2, b3)`: the word whose most significant byte is `b0` (R12, R68). -/
def be32 (b0 b1 b2 b3 : Byte) : Word := b0 ++ b1 ++ b2 ++ b3

/-- Byte `j` of a word counted from the most significant: `v[31 - 8j : 24 - 8j]` for `j = 0..3` (R66, R83). -/
def byteOf (v : Word) (j : Nat) : Byte := v.extractLsb' (24 - 8 * j) 8

/-- `ROTR(x, n)`, used for 0 < n < 32 only (R12, R110). -/
def rotr (x : Word) (n : Nat) : Word := (x >>> n) ||| (x <<< (32 - n))

/-- `SHR(x, n)`, the logical right shift (R12). -/
def shr (x : Word) (n : Nat) : Word := x >>> n

/-- R104. -/
def ch (x y z : Word) : Word := (x &&& y) ^^^ (~~~x &&& z)

/-- R105. -/
def maj (x y z : Word) : Word := (x &&& y) ^^^ (x &&& z) ^^^ (y &&& z)

/-- `S0`, the round function the source calls sigma0 (R106, 90_conflicts.md C5). -/
def bigSigma0 (x : Word) : Word := rotr x 2 ^^^ rotr x 13 ^^^ rotr x 22

/-- `S1`, the round function the source calls sigma1 (R107, C5). -/
def bigSigma1 (x : Word) : Word := rotr x 6 ^^^ rotr x 11 ^^^ rotr x 25

/-- `s0`, the schedule function the source calls gamma0 (R108, C5). -/
def smallSigma0 (x : Word) : Word := rotr x 7 ^^^ rotr x 18 ^^^ shr x 3

/-- `s1`, the schedule function the source calls gamma1 (R109, C5). -/
def smallSigma1 (x : Word) : Word := rotr x 17 ^^^ rotr x 19 ^^^ shr x 10

/-- The initialization vector (R101). -/
def iv : Vector Word 8 :=
  #v[0x6a09e667#32, 0xbb67ae85#32, 0x3c6ef372#32, 0xa54ff53a#32,
     0x510e527f#32, 0x9b05688c#32, 0x1f83d9ab#32, 0x5be0cd19#32]

/-- `K[0..15]` (R102). -/
def kRows0 : List Word :=
  [0x428a2f98#32, 0x71374491#32, 0xb5c0fbcf#32, 0xe9b5dba5#32] ++
  [0x3956c25b#32, 0x59f111f1#32, 0x923f82a4#32, 0xab1c5ed5#32] ++
  [0xd807aa98#32, 0x12835b01#32, 0x243185be#32, 0x550c7dc3#32] ++
  [0x72be5d74#32, 0x80deb1fe#32, 0x9bdc06a7#32, 0xc19bf174#32]

/-- `K[16..31]` (R102). -/
def kRows1 : List Word :=
  [0xe49b69c1#32, 0xefbe4786#32, 0x0fc19dc6#32, 0x240ca1cc#32] ++
  [0x2de92c6f#32, 0x4a7484aa#32, 0x5cb0a9dc#32, 0x76f988da#32] ++
  [0x983e5152#32, 0xa831c66d#32, 0xb00327c8#32, 0xbf597fc7#32] ++
  [0xc6e00bf3#32, 0xd5a79147#32, 0x06ca6351#32, 0x14292967#32]

/-- `K[32..47]` (R102). -/
def kRows2 : List Word :=
  [0x27b70a85#32, 0x2e1b2138#32, 0x4d2c6dfc#32, 0x53380d13#32] ++
  [0x650a7354#32, 0x766a0abb#32, 0x81c2c92e#32, 0x92722c85#32] ++
  [0xa2bfe8a1#32, 0xa81a664b#32, 0xc24b8b70#32, 0xc76c51a3#32] ++
  [0xd192e819#32, 0xd6990624#32, 0xf40e3585#32, 0x106aa070#32]

/-- `K[48..63]` (R102). -/
def kRows3 : List Word :=
  [0x19a4c116#32, 0x1e376c08#32, 0x2748774c#32, 0x34b0bcb5#32] ++
  [0x391c0cb3#32, 0x4ed8aa4a#32, 0x5b9cca4f#32, 0x682e6ff3#32] ++
  [0x748f82ee#32, 0x78a5636f#32, 0x84c87814#32, 0x8cc70208#32] ++
  [0x90befffa#32, 0xa4506ceb#32, 0xbef9a3f7#32, 0xc67178f2#32]

/-- The 64 round constants `K[0..63]` (R102). -/
def kTable : Vector Word 64 := ⟨⟨kRows0 ++ kRows1 ++ kRows2 ++ kRows3⟩, rfl⟩

end Sys2Proof.Machine
end

