-- ==== Sys2Proof/Machine/Compression.lean ====
section
/-!
DEFINITION. The block compression of 41_compression.md: the message schedule (R131), one round (R142, R143), the 64 rounds
(R144) and the accumulation (R145), as pure functions of the hash state and the block (R130).
-/

namespace Sys2Proof.Machine

/-- Word `k` of a block read big-endian: `BE32(B[4k], B[4k+1], B[4k+2], B[4k+3])` (R67, R68, R131). -/
def blockWord (B : Vector Byte 64) (k : Fin 16) : Word :=
  be32 B[4 * k.val] B[4 * k.val + 1] B[4 * k.val + 2] B[4 * k.val + 3]

/-- `W[t]` for `t` in 16..63 from the sixteen words before it (R131); the indices of one recurrence step lie below 64. -/
def scheduleWord (W : Vector Word 64) (t : Fin 64) : Word :=
  smallSigma1 W[t.val - 2] + W[t.val - 7] + smallSigma0 W[t.val - 15] + W[t.val - 16]

/-- The first loop of R131: `W[t] = BE32(B[4t], ...)` for `t` in 0..15, the places 16..63 not yet written. -/
def scheduleHead (B : Vector Byte 64) : Vector Word 64 :=
  Vector.ofFn fun t => if h : t.val < 16 then blockWord B ⟨t.val, h⟩ else 0#32

/-- The second loop of R131 over the indices given, in their order. -/
def scheduleTail (W : Vector Word 64) (ts : List (Fin 64)) : Vector Word 64 :=
  ts.foldl (fun W t => W.set t.val (scheduleWord W t)) W

/-- The indices `n..63` in order. -/
def indicesFrom (n : Nat) : List (Fin 64) := (List.finRange 64).filter fun t => decide (n ≤ t.val)

/-- The message schedule `W[0..63]` of a block (R131). -/
def schedule (B : Vector Byte 64) : Vector Word 64 := scheduleTail (scheduleHead B) (indicesFrom 16)

/-- `T1` of a round (R142). -/
def temp1 (w : Work) (k wt : Word) : Word := w.h + bigSigma1 w.e + ch w.e w.f w.g + k + wt

/-- `T2` of a round (R142). -/
def temp2 (w : Work) : Word := bigSigma0 w.a + maj w.a w.b w.c

/-- One round: the eight new values computed together from the values before it (R142, R143). -/
def roundStep (w : Work) (k wt : Word) : Work :=
  { a := temp1 w k wt + temp2 w, b := w.a, c := w.b, d := w.c,
    e := w.d + temp1 w k wt, f := w.e, g := w.f, h := w.g }

/-- The working vector loaded from the hash state (R141). -/
def loadWork (H : Vector Word 8) : Work :=
  { a := H[0], b := H[1], c := H[2], d := H[3], e := H[4], f := H[5], g := H[6], h := H[7] }

/-- The datapath at the start of a compression: `W` from the block, `a..h` from the state, `t = 0` (R131, R141, R34). -/
def datapathLoad (H : Vector Word 8) (B : Vector Byte 64) : Datapath :=
  { work := loadWork H, sched := schedule B, round := 0 }

/-- Round `t` on the datapath registers, with `K[t]` and `W[t]`; the counter goes on to `t` (R34, R142 to R144). -/
def datapathRound (dp : Datapath) (t : Fin 64) : Datapath :=
  { dp with work := roundStep dp.work kTable[t] dp.sched[t], round := t }

/-- The 64 rounds in order `t = 0, 1, ..., 63` (R144). -/
def datapathRun (dp : Datapath) : Datapath := (List.finRange 64).foldl datapathRound dp

/-- The accumulation: each working register added into its word of the state before the compression (R145). -/
def accumulate (H : Vector Word 8) (w : Work) : Vector Word 8 :=
  #v[H[0] + w.a, H[1] + w.b, H[2] + w.c, H[3] + w.d, H[4] + w.e, H[5] + w.f, H[6] + w.g, H[7] + w.h]

/-- `compress(H, B)` (R130, R140): total, and a function of its two arguments alone. -/
def compress (H : Vector Word 8) (B : Vector Byte 64) : Vector Word 8 :=
  accumulate H (datapathRun (datapathLoad H B)).work

end Sys2Proof.Machine
end

