-- ==== Sys2Proof/Config.lean ====
section
/-!
DEFINITION. The free values: what the spec leaves unfixed while the machine goes on. Each is a constant with no body,
applied to the draw `State.draws`, so that no proof can know its value and every claim holds for all of them.
The spec's OPEN parameters that are data of a run (the latencies of R9, `ENGINE_BASE`, `N_ENGINES`) stand in `Cycle.lat`
and in `System`, not here.
-/

namespace Sys2Proof

/-- `ANY32` of R55 and R57: the word a read of an engine-owned register at a word offset draws while `busy = 1`.
Arguments: the draw of the edge, which names the engine's stream (log entry 17), and the word offset read (DESIGN CHOICE,
safe: log entry 1). -/
opaque Config.anyRead : Draw → BitVec 5 → Word

/-- The value on the `rdata` port at an edge that performs no read: any value while `rst_n = 0` (R250), and not stated by
the spec at a write or with `sel = 0` (DESIGN CHOICE, safe: log entry 2). -/
opaque Config.anyRdata : Draw → Word

/-- What the working vector, the schedule and the round counter hold once a compression has ended: unspecified between
commands (R32 to R34, 93_implementation_defined.md U6; DESIGN CHOICE, log entry 3). -/
opaque Config.anyDatapath : Draw → Datapath

/-- Whether the error bit of a write refused at the very edge at which an INIT completes is set after that edge. R160
clears all five bits at the completion, R220 makes the new error visible from the next read on, and no rule orders the two
(DESIGN CHOICE, safe: log entry 4). -/
opaque Config.errorOutlivesInit : Draw → Bool

end Sys2Proof
end

