-- ==== Sys2Proof/Machine/State.lean ====
section
/-!
DEFINITION. The state of one engine (10_state.md), with the pins of each clock edge still to come (20_memory.md R50) and the
values the model itself needs; the state right after reset (70_reset_and_hazards.md R251); the reasons a step can stop.
-/

namespace Sys2Proof.Machine

/-- `phase` (R25). -/
inductive Phase where
  /-- The engine accepts message data. -/
  | absorb
  /-- `H` holds a digest; only INIT is accepted. -/
  | final
  deriving DecidableEq, Repr, Inhabited

/-- The five sticky error bits by name (R28, R221 to R225). -/
inductive ErrBit where
  /-- ERR_ILLEGAL, STATUS bit 16 (R221). -/
  | illegal
  /-- ERR_SEQ, STATUS bit 17 (R223). -/
  | seq
  /-- ERR_BUSY, STATUS bit 18 (R222). -/
  | busy
  /-- ERR_LEN, STATUS bit 19 (R224). -/
  | len
  /-- ERR_TARGET, STATUS bit 20 (R225). -/
  | target
  deriving DecidableEq, Repr, Inhabited

/-- `err`: the five sticky error bits (R28). -/
structure Errors where
  illegal : Bool
  seq     : Bool
  busy    : Bool
  len     : Bool
  target  : Bool
  deriving DecidableEq, Repr, Inhabited

/-- `some(cmd, data)` of `pending` (R29): the command word issued and not yet completed, and the DATA_IN value captured at
its issue. `left` is the model's own: the clock edges still to come up to and including the completion edge
(R260; DEDUCED, log entry 12). -/
structure Pending where
  cmd  : Word
  data : Word
  left : Nat
  deriving DecidableEq, Repr, Inhabited

/-- The latencies `LAT_INIT`, `LAT_ABSORB`, `LAT_COMPRESS` and `LAT_FINALIZE` (R9): cycles from issue to completion, each
a natural number, 0 allowed. -/
structure Latencies where
  init     : Nat
  absorb   : Nat
  compress : Nat
  finalize : Nat
  deriving DecidableEq, Repr, Inhabited

/-- One clock edge as its input pins have it (R50), and the values the latency parameters have for a command issued at this
edge, since they may differ from one issue to the next (R9; DESIGN CHOICE, log entry 10). -/
structure Cycle where
  rstN  : Bool
  sel   : Bool
  we    : Bool
  addr  : BitVec 5
  wdata : Word
  lat   : Latencies
  deriving DecidableEq, Repr, Inhabited

/-- The whole state of one engine. `H` to `dp` are the spec's (R20 to R34); `rdata` is the output port of R50; `inputs`,
`lat` and `draws` are the model's own. -/
@[ext]
structure State where
  /-- `H[0..7]`, the hash state (R20). -/
  H : Vector Word 8
  /-- `buf[0..63]`, the block buffer (R22). -/
  buf : Vector Byte 64
  /-- `buf_fill`, 0 to 63 (R23). -/
  bufFill : Fin 64
  /-- `msg_len`, the message's bit-length so far (R24). -/
  msgLen : BitVec 64
  /-- `phase` (R25). -/
  phase : Phase
  /-- `DATA_IN` (R26). -/
  dataIn : Word
  /-- `TARGET`, nine bits (R27). -/
  target : BitVec 9
  /-- `err` (R28). -/
  err : Errors
  /-- `pending` (R29). -/
  pending : Option Pending
  /-- The working vector, the schedule and the round counter (R32 to R34). -/
  dp : Datapath
  /-- What the `rdata` port carried at the last edge (R50, R51). -/
  rdata : Word
  /-- The clock edges to come as the outside world will drive them, the next one first. When the list is empty the clock
  goes on with `sel = 0`. -/
  inputs : List Cycle
  /-- The latency parameters as they stand at the edge being taken (R9). -/
  lat : Latencies
  /-- The draw of the free values at the edge being taken: the argument of the constants of Config. -/
  draws : Draw
  deriving DecidableEq, Repr

/-- `busy` is `pending ≠ none` (R29). -/
def State.busy (s : State) : Bool := s.pending.isSome

/-- Why a step can stop. -/
inductive Fault where
  /-- Raised by the completion of a command (`completePending`) when `pending` holds a word that is not a legal command.
  Only a legal word is ever issued (R226, R260), so no run from reset reaches it, and the spec gives it no effect.
  DESIGN CHOICE, safe (log entry 8). -/
  | pendingNotLegal
  deriving DecidableEq, Repr

/-- Why a step can be refused. -/
inductive Refusal where
  /-- Raised by an arm of `exec` for an instruction with no meaning yet. No arm does. Safe. -/
  | notModelled (mnemonic : String)
  deriving DecidableEq, Repr

/-- No error bit set (R28, R160). -/
def Errors.none : Errors :=
  { illegal := false, seq := false, busy := false, len := false, target := false }

/-- Every latency 0: "one legal schedule" of R270 (95_test_vectors.md). -/
def Latencies.zero : Latencies := { init := 0, absorb := 0, compress := 0, finalize := 0 }

/-- The value State.reset gives the internal registers, whose reset value is unspecified (R32 to R34): all zero.
DESIGN CHOICE, unsafe (log entry 5). -/
def Datapath.atReset : Datapath :=
  { work := { a := 0#32, b := 0#32, c := 0#32, d := 0#32, e := 0#32, f := 0#32, g := 0#32, h := 0#32 }
    sched := Vector.replicate 64 0#32
    round := 0 }

/-- The machine right after reset (R251). The spec gives every value but those of `dp` (log entry 5), of the `rdata` port
(log entry 6) and of the model's own `inputs`, `lat` and `draws` (log entry 7). -/
def State.reset : State :=
  { H := iv
    buf := Vector.replicate 64 0#8
    bufFill := 0
    msgLen := 0#64
    phase := .absorb
    dataIn := 0#32
    target := 0#9
    err := Errors.none
    pending := none
    dp := Datapath.atReset
    rdata := 0#32
    inputs := []
    lat := Latencies.zero
    draws := { stream := 0, number := 0 } }

end Sys2Proof.Machine
end

