-- ==== Sys2Proof/Machine/Flags.lean ====
section
/-!
DEFINITION. What the engine derives from its state: LZC (43_leading_zero.md), DIGEST_VALID, MEETS, the STATUS word
(20_memory.md R61); and raising an error bit (60_exceptions.md R220).
-/

namespace Sys2Proof.Machine

/-- Byte `j` of the digest, for `j` = 0..31: `H[j / 4][31 - 8·(j mod 4) : 24 - 8·(j mod 4)]` (R66). -/
def digestByte (H : Vector Word 8) (j : Fin 32) : Byte := byteOf H[j.val / 4] (j.val % 4)

/-- The 32 digest bytes `D[0..31]`, the first one first (R66, R200). -/
def digestBytes (H : Vector Word 8) : List Byte := (List.finRange 32).map (digestByte H)

/-- `clz8(x) = 7 - floor(log2(x))`, for a nonzero byte (R200). -/
def clz8 (x : Byte) : Nat := 7 - Nat.log2 x.toNat

/-- The scan of R200: a zero byte counts 8, and the first nonzero byte ends the count. -/
def leadingZeros : List Byte → Nat
  | [] => 0
  | b :: bs => if b = 0#8 then 8 + leadingZeros bs else clz8 b

/-- `LZC(H)` (R30, R200). -/
def lzc (H : Vector Word 8) : Nat := leadingZeros (digestBytes H)

/-- DIGEST_VALID (R31). -/
def State.digestValid (s : State) : Bool := s.phase == .final

/-- MEETS: `phase = FINAL and LZC(H) >= TARGET`, unsigned (R31, R205). -/
def State.meets (s : State) : Bool := s.digestValid && decide (s.target.toNat ≤ lzc s.H)

/-- One bit zero-extended to a word. -/
def bitWord (b : Bool) : Word := (BitVec.ofBool b).setWidth 32

/-- `STATUS_word()` (R61): every field at its exact value. -/
def State.statusWord (s : State) : Word :=
  bitWord s.busy ||| bitWord s.digestValid <<< 1 ||| bitWord s.meets <<< 2
    ||| BitVec.ofNat 32 s.bufFill.val <<< 8
    ||| bitWord s.err.illegal <<< 16 ||| bitWord s.err.seq <<< 17 ||| bitWord s.err.busy <<< 18
    ||| bitWord s.err.len <<< 19 ||| bitWord s.err.target <<< 20

/-- The STATUS bits a read does not fix while `busy = 1`: 1, 2 and 13:8 (R57, R61). -/
def statusUnfixed : Word := 0x00003f06#32

/-- The error bits with one more set (R227: the bits are ORed). -/
def Errors.set (e : Errors) : ErrBit → Errors
  | .illegal => { e with illegal := true }
  | .seq => { e with seq := true }
  | .busy => { e with busy := true }
  | .len => { e with len := true }
  | .target => { e with target := true }

/-- One error bit. -/
def Errors.get (e : Errors) : ErrBit → Bool
  | .illegal => e.illegal
  | .seq => e.seq
  | .busy => e.busy
  | .len => e.len
  | .target => e.target

/-- `raise ERR_X` (R12, R220): the one sticky bit set, no other state changed. This is all the taking of an error the engine
has: it saves nothing, goes nowhere, and changes no mode. -/
def State.raise (s : State) (b : ErrBit) : State := { s with err := s.err.set b }

end Sys2Proof.Machine
end

