-- ==== Sys2Proof/Machine/Operands.lean ====
section
/-!
DEFINITION. The operand of ABSORB (30_encoding.md R83) and the length field of FINALIZE (42_commands.md R184).
-/

namespace Sys2Proof.Machine

/-- The bytes ABSORB takes: byte `j`, for `j = 0 .. n - 1`, is `data[31 - 8j : 24 - 8j]` (R83, R165). -/
def absorbedBytes (n : BitVec 3) (data : Word) : List Byte := (List.range n.toNat).map (byteOf data)

/-- Byte `i`, for `i = 0..7`, of the big-endian length field: `msg_len[63 - 8i : 56 - 8i]` (R181, R184). -/
def lengthByte (msgLen : BitVec 64) (i : Nat) : Byte := msgLen.extractLsb' (56 - 8 * i) 8

/-- The latency a command has when it is issued now: that of its OP (R9, R260). -/
def Latencies.of (l : Latencies) : Instr → Nat
  | .init => l.init
  | .absorb _ => l.absorb
  | .compress => l.compress
  | .finalize => l.finalize

end Sys2Proof.Machine
end

