-- ==== Sys2Proof/Machine/Ops.lean ====
section
/-!
DEFINITION. The operations the commands share: compressing the block buffer (41_compression.md R145), storing one message
byte (42_commands.md R165), the padding (R181), and issuing a command (70_reset_and_hazards.md R260) or refusing it
(60_exceptions.md R220, R226).
-/

namespace Sys2Proof.Machine

/-- `H <- compress(H, buf)` (R145). The internal registers hold unspecified values once it has ended (R32 to R34, U6; log
entry 3). -/
def State.compressBlock (s : State) : State :=
  { s with H := compress s.H s.buf, dp := Config.anyDatapath s.draws }

/-- One byte of an ABSORB: stored at `buf[buf_fill]`; the 64th byte of a block compresses it (R165, R166). -/
def State.absorbByte (s : State) (b : Byte) : State :=
  let stored := { s with buf := s.buf.set s.bufFill.val b }
  if h : s.bufFill.val + 1 < 64 then { stored with bufFill := ⟨s.bufFill.val + 1, h⟩ }
  else { stored.compressBlock with bufFill := 0 }

/-- The first lines of R181: 0x80 at `buf[f]`, zeros in `buf[f + 1 .. 63]`. -/
def padTail (buf : Vector Byte 64) (f : Fin 64) : Vector Byte 64 :=
  Vector.ofFn fun i => if i < f then buf[i] else if i = f then 0x80#8 else 0x00#8

/-- The length field in `buf[56..63]`, big-endian (R181, R184). -/
def putLength (buf : Vector Byte 64) (msgLen : BitVec 64) : Vector Byte 64 :=
  Vector.ofFn fun i => if 56 ≤ i.val then lengthByte msgLen (i.val - 56) else buf[i]

/-- The padding of R181 with its one or two compressions (R182). -/
def State.pad (s : State) : State :=
  let padded := { s with buf := padTail s.buf s.bufFill }
  let room :=
    if 55 < s.bufFill.val then { padded.compressBlock with buf := Vector.replicate 64 0x00#8 } else padded
  State.compressBlock { room with buf := putLength room.buf s.msgLen }

/-- Issue a command that has passed every check (R260): with latency 0 its effect is applied at this edge and BUSY is never
seen as 1; otherwise the word and DATA_IN are captured in `pending`, and `lat` edges later the command completes. -/
def State.issue (s : State) (v : Word) (lat : Nat) (effect : State → State) : State :=
  if lat = 0 then effect s else { s with pending := some { cmd := v, data := s.dataIn, left := lat } }

/-- A checked command write (R220, R226): the first check that fails raises its bit and nothing else happens. -/
def checkedIssue (check : Option ErrBit) (v : Word) (lat : Nat) (effect : State → State) (s : State) :
    Host.Outcome State Fault Refusal :=
  match check with
  | some b => .next (s.raise b)
  | none => .next (s.issue v lat effect)

/-- `n` more bits would bring `msg_len` to 2^64 or beyond (R224). -/
def State.tooLong (s : State) (n : Nat) : Bool := decide (2 ^ 64 ≤ s.msgLen.toNat + n)

end Sys2Proof.Machine
end

