-- ==== Sys2Proof/Machine/Commands.lean ====
section
/-!
DEFINITION. The four commands (42_commands.md). For each: its checks at issue in the order of 60_exceptions.md R226, its effect at
completion, and its meaning, which is the effect of writing its command word to CMD: refused with an error bit, or issued,
and with latency 0 completed at once (70_reset_and_hazards.md R260).
-/

namespace Sys2Proof.Machine

/-- The checks of INIT: only busy (R160, R226). -/
def checkInit (s : State) : Option ErrBit := if s.busy then some .busy else none

/-- The effect of INIT (R160). `buf`, DATA_IN and TARGET stay (R161). -/
def effectInit (s : State) : State :=
  { s with H := iv, msgLen := 0#64, bufFill := 0, phase := .absorb, err := Errors.none }

/-- INIT (R160). -/
def execInit (s : State) : Host.Outcome State Fault Refusal :=
  checkedIssue (checkInit s) (encode .init) s.lat.init effectInit s

/-- The checks of ABSORB in order: busy, the word's legality, phase, length (R165, R226). An NBYTES of 0 or 5 to 7 makes the
word illegal (R81, R221; DEDUCED, log entry 14). -/
def checkAbsorb (nbytes : BitVec 3) (s : State) : Option ErrBit :=
  if s.busy then some .busy
  else if ¬ (Instr.absorb nbytes).wellFormed then some .illegal
  else if s.phase = .final then some .seq
  else if s.tooLong (8 * nbytes.toNat) then some .len
  else none

/-- The effect of ABSORB on the DATA_IN value captured at its issue (R165). -/
def effectAbsorb (nbytes : BitVec 3) (data : Word) (s : State) : State :=
  { (absorbedBytes nbytes data).foldl State.absorbByte s with
    msgLen := s.msgLen + BitVec.ofNat 64 (8 * nbytes.toNat) }

/-- ABSORB (R165). -/
def execAbsorb (nbytes : BitVec 3) (s : State) : Host.Outcome State Fault Refusal :=
  checkedIssue (checkAbsorb nbytes s) (encode (.absorb nbytes)) s.lat.absorb (effectAbsorb nbytes s.dataIn) s

/-- The checks of COMPRESS in order: busy, phase, `buf_fill`, length (R175, R226). -/
def checkCompress (s : State) : Option ErrBit :=
  if s.busy then some .busy
  else if s.phase = .final then some .seq
  else if s.bufFill ≠ 0 then some .seq
  else if s.tooLong 512 then some .len
  else none

/-- The effect of COMPRESS (R175, R176). -/
def effectCompress (s : State) : State := { s.compressBlock with msgLen := s.msgLen + 512#64 }

/-- COMPRESS (R175). -/
def execCompress (s : State) : Host.Outcome State Fault Refusal :=
  checkedIssue (checkCompress s) (encode .compress) s.lat.compress effectCompress s

/-- The checks of FINALIZE in order: busy, phase (R180, R226). It has no length check. -/
def checkFinalize (s : State) : Option ErrBit :=
  if s.busy then some .busy else if s.phase = .final then some .seq else none

/-- The effect of FINALIZE (R180, R181). -/
def effectFinalize (s : State) : State := { s.pad with bufFill := 0, phase := .final }

/-- FINALIZE (R180). -/
def execFinalize (s : State) : Host.Outcome State Fault Refusal :=
  checkedIssue (checkFinalize s) (encode .finalize) s.lat.finalize effectFinalize s

/-- The effect of a command at its completion, on the data captured at its issue (R260). -/
def effectOf : Instr → Word → State → State
  | .init, _, s => effectInit s
  | .absorb nbytes, data, s => effectAbsorb nbytes data s
  | .compress, _, s => effectCompress s
  | .finalize, _, s => effectFinalize s

/-- The checks of a command's write (R226). -/
def checkOf : Instr → State → Option ErrBit
  | .init, s => checkInit s
  | .absorb nbytes, s => checkAbsorb nbytes s
  | .compress, s => checkCompress s
  | .finalize, s => checkFinalize s

end Sys2Proof.Machine
end

