-- ==== Sys2Proof/Machine/Dispatch.lean ====
section
/-!
DEFINITION. One arm per instruction: the meaning of each command (42_commands.md).
-/

namespace Sys2Proof.Machine

/-- The effect of writing the instruction's command word to CMD. -/
def exec (i : Instr) (s : State) : Host.Outcome State Fault Refusal :=
  match i with
  | .init => Sys2Proof.Machine.execInit s
  | .absorb nbytes => Sys2Proof.Machine.execAbsorb nbytes s
  | .compress => Sys2Proof.Machine.execCompress s
  | .finalize => Sys2Proof.Machine.execFinalize s

end Sys2Proof.Machine
end

