-- ==== Sys2Proof/Machine/Registers.lean ====
section
/-!
DEFINITION. The register map (20_memory.md R52): the names of the 32 word registers and their word offsets.
-/

namespace Sys2Proof.Machine

/-- The registers of R52 by name. -/
inductive Reg where
  | cmd
  | status
  | dataIn
  | target
  | lzc
  | msglenLo
  | msglenHi
  /-- Offset 0x1C. -/
  | reserved
  /-- DIGEST0 to DIGEST7. -/
  | digest (i : Fin 8)
  /-- BLOCK0 to BLOCK15. -/
  | block (k : Fin 16)
  deriving DecidableEq, Repr

/-- The register at word offset `addr`, which is byte offset `4·addr` (R50, R52). -/
def regAt (addr : BitVec 5) : Reg :=
  if 16 ≤ addr.toNat then .block (Fin.ofNat 16 (addr.toNat - 16))
  else if 8 ≤ addr.toNat then .digest (Fin.ofNat 8 (addr.toNat - 8))
  else
    match addr.toNat with
    | 0 => .cmd
    | 1 => .status
    | 2 => .dataIn
    | 3 => .target
    | 4 => .lzc
    | 5 => .msglenLo
    | 6 => .msglenHi
    | _ => .reserved

/-- The word offset of a register, the `addr` pins that select it (R50, R52). -/
def addrOf : Reg → BitVec 5
  | .cmd => 0#5
  | .status => 1#5
  | .dataIn => 2#5
  | .target => 3#5
  | .lzc => 4#5
  | .msglenLo => 5#5
  | .msglenHi => 6#5
  | .reserved => 7#5
  | .digest i => BitVec.ofNat 5 (8 + i.val)
  | .block k => BitVec.ofNat 5 (16 + k.val)

/-- The byte offset of a register (R52). -/
def offsetOf (r : Reg) : Nat := 4 * (addrOf r).toNat

end Sys2Proof.Machine
end

