-- ==== Sys2Proof/Machine/Bus.lean ====
section
/-!
DEFINITION. The bus (20_memory.md): reading and writing a register, and one clock edge: the reset, the bus access, which sees
the state from before the edge, and the completion of the command in progress (60_exceptions.md R228, 70_reset_and_hazards.md
R250, R260).
-/

namespace Sys2Proof.Machine

/-- `if busy then ANY32 else v` of R55: `addr` is the word offset read. -/
def State.ownedRead (s : State) (addr : BitVec 5) (v : Word) : Word :=
  if s.busy then Config.anyRead s.draws addr else v

/-- A read of STATUS: exact, but for bits 1, 2 and 13:8 while busy, which read any value (R57, R61). -/
def State.statusRead (s : State) : Word :=
  if s.busy then
    (s.statusWord &&& ~~~statusUnfixed) ||| (Config.anyRead s.draws (addrOf .status) &&& statusUnfixed)
  else s.statusWord

/-- `MemRead` of a register (R55). -/
def memRead (r : Reg) (s : State) : Word :=
  match r with
  | .cmd => 0#32
  | .status => s.statusRead
  | .dataIn => s.dataIn
  | .target => s.target.setWidth 32
  | .lzc => s.ownedRead (addrOf r) (BitVec.ofNat 32 (lzc s.H))
  | .msglenLo => s.ownedRead (addrOf r) (s.msgLen.extractLsb' 0 32)
  | .msglenHi => s.ownedRead (addrOf r) (s.msgLen.extractLsb' 32 32)
  | .reserved => 0#32
  | .digest i => s.ownedRead (addrOf r) s.H[i]
  | .block k => s.ownedRead (addrOf r) (blockWord s.buf k)

/-- The check a write makes before anything else (R56, R226): busy for CMD and BLOCKk, the range of all 32 bits for TARGET. -/
def writeCheck (r : Reg) (v : Word) (s : State) : Option ErrBit :=
  match r with
  | .cmd => if s.busy then some .busy else none
  | .block _ => if s.busy then some .busy else none
  | .target => if 256 < v.toNat then some .target else none
  | .status | .dataIn | .lzc | .msglenLo | .msglenHi | .reserved | .digest _ => none

/-- A word written to CMD while not busy: an illegal word raises ERR_ILLEGAL, a legal one is its command (R56, R60, R84). -/
def issueWord (v : Word) (s : State) : Host.Outcome State Fault Refusal :=
  match decode v with
  | .error _ => .next (s.raise .illegal)
  | .ok i => exec i s

/-- The bytes of a BLOCKk write: `buf[4k]` takes the most significant (R56, R67). -/
def putBlockWord (buf : Vector Byte 64) (k : Fin 16) (v : Word) : Vector Byte 64 :=
  (((buf.set (4 * k.val) (byteOf v 0)).set (4 * k.val + 1) (byteOf v 1)).set (4 * k.val + 2) (byteOf v 2)).set
    (4 * k.val + 3) (byteOf v 3)

/-- What a write does once its check has passed (R56); a read-only or reserved register ignores it. -/
def performWrite (r : Reg) (v : Word) (s : State) : Host.Outcome State Fault Refusal :=
  match r with
  | .cmd => issueWord v s
  | .dataIn => .next { s with dataIn := v }
  | .target => .next { s with target := v.setWidth 9 }
  | .block k => .next { s with buf := putBlockWord s.buf k v }
  | .status | .lzc | .msglenLo | .msglenHi | .reserved | .digest _ => .next s

/-- `MemWrite` of a register (R56, R220). -/
def memWrite (r : Reg) (v : Word) (s : State) : Host.Outcome State Fault Refusal :=
  match writeCheck r v s with
  | some b => .next (s.raise b)
  | none => performWrite r v s

/-- The edge begun: the parameters of this edge, the next draw, and an `rdata` no read has driven. -/
def State.beginEdge (s : State) (c : Cycle) : State :=
  { s with lat := c.lat, rdata := Config.anyRdata s.draws, draws := s.draws.next }

/-- The bus access of an edge with `rst_n = 1` (R51). A read drives `rdata` from the state before the edge and changes
nothing else. -/
def busAccess (c : Cycle) (s : State) : Host.Outcome State Fault Refusal :=
  if c.sel then
    if c.we then memWrite (regAt c.addr) c.wdata (s.beginEdge c)
    else .next { s.beginEdge c with rdata := memRead (regAt c.addr) s }
  else .next (s.beginEdge c)

/-- The error the access of an edge raises in a busy state (R222, R225): there the first check is the only one. -/
def busyEdgeError (c : Cycle) (s : State) : Option ErrBit :=
  if c.sel && c.we then writeCheck (regAt c.addr) c.wdata s else none

/-- The completion of the pending command (R260), with `raised` the error the same edge's access has raised. INIT clears the
error bits; whether the one raised at this very edge outlives it is free (log entry 4). -/
def completePending (p : Pending) (raised : Option ErrBit) (s : State) : Host.Outcome State Fault Refusal :=
  match decode p.cmd with
  | .error _ => .fault .pendingNotLegal
  | .ok i =>
    let done := { effectOf i p.data s with pending := none }
    match i, raised with
    | .init, some b => .next (if Config.errorOutlivesInit s.draws then done.raise b else done)
    | _, _ => .next done

/-- The engine's part of an edge: the command pending before the edge comes one cycle nearer, or completes (R260). `before` is
the state before the edge and `s` the one the access has left. -/
def engineTurn (c : Cycle) (before s : State) : Host.Outcome State Fault Refusal :=
  match before.pending with
  | none => .next s
  | some p =>
    if p.left ≤ 1 then completePending p (busyEdgeError c before) s
    else .next { s with pending := some { p with left := p.left - 1 } }

/-- An edge with `rst_n = 0` (R250): every piece of state at its reset value and no access. The inputs to come, the draws
and the `rdata` port, which carries any value, are no registers of the engine. -/
def State.resetEdge (s : State) (c : Cycle) : State :=
  { State.reset with
    inputs := s.inputs, lat := c.lat, rdata := Config.anyRdata s.draws, draws := s.draws.next }

/-- One rising edge of `clk` (R50, R51, R228, R250). The access is taken first and the completion on what it leaves (DEDUCED,
log entry 11). -/
def clockEdge (c : Cycle) (s : State) : Host.Outcome State Fault Refusal :=
  if c.rstN then
    match busAccess c s with
    | .next s' => engineTurn c s s'
    | .fault f => .fault f
    | .refused r => .refused r
  else .next (s.resetEdge c)

/-- An edge with `rst_n = 1` and `sel = 0`: no access (R51). -/
def idleCycle (lat : Latencies) : Cycle :=
  { rstN := true, sel := false, we := false, addr := 0#5, wdata := 0#32, lat := lat }

/-- The edge of a write of `v` to a register. -/
def writeCycle (r : Reg) (v : Word) (lat : Latencies) : Cycle :=
  { rstN := true, sel := true, we := true, addr := addrOf r, wdata := v, lat := lat }

/-- The edge of a read of a register. -/
def readCycle (r : Reg) (lat : Latencies) : Cycle :=
  { rstN := true, sel := true, we := false, addr := addrOf r, wdata := 0#32, lat := lat }

/-- The edge of a reset (R250). -/
def resetCycle (lat : Latencies) : Cycle :=
  { rstN := false, sel := false, we := false, addr := 0#5, wdata := 0#32, lat := lat }

/-- The `busy` output port (R50). -/
def State.busyPort (s : State) : Bool := s.statusRead.getLsbD 0

/-- The `digest_valid` output port: equal to STATUS.DIGEST_VALID, so any value while busy (R50, R57; DEDUCED, log
entry 13). -/
def State.digestValidPort (s : State) : Bool := s.statusRead.getLsbD 1

/-- The `meets` output port: equal to STATUS.MEETS, so any value while busy (R50, R57; DEDUCED, log entry 13). -/
def State.meetsPort (s : State) : Bool := s.statusRead.getLsbD 2

end Sys2Proof.Machine
end

