-- ==== Sys2Proof/Machine/Step.lean ====
section
/-!
DEFINITION. One step of the machine is one clock edge, taken with the pins at the head of `inputs`; and how a command word is
placed where the next step takes it.
-/

namespace Sys2Proof.Machine

/-- One clock edge. The engine fetches nothing (R36, R73): its next instruction is the next word the host writes to CMD. With
no input left the clock goes on with no access (log entry 7). -/
def step (s : State) : Host.Outcome State Fault Refusal :=
  match s.inputs with
  | [] => clockEdge (idleCycle s.lat) s
  | c :: rest => clockEdge c { s with inputs := rest }

/-- `s` with a write of the table row's word to CMD as the next clock edge, before the inputs already there. -/
def State.withFetchWord (s : State) (nbits w : Nat) : State :=
  { s with inputs := writeCycle .cmd (tableWord nbits w) s.lat :: s.inputs }

end Sys2Proof.Machine
end

