-- ==== Sys2Proof/Machine/System.lean ====
section
/-!
DEFINITION. A system of `N_ENGINES` engines, each at its own base address (00_scope.md R9, 20_memory.md R52 and R53,
60_exceptions.md R241): an edge of one engine, and an access at an address of the system.
-/

namespace Sys2Proof.Machine

/-- One engine of a system with its `ENGINE_BASE` (R52). -/
structure Engine where
  base  : Nat
  state : State
  deriving DecidableEq, Repr

/-- The engines of a system; there are `N_ENGINES` of them (R9, R241). -/
structure System where
  engines : List Engine
  deriving DecidableEq, Repr

/-- `N_ENGINES` (R9). -/
def System.count (sys : System) : Nat := sys.engines.length

/-- The state drawing its free values from stream `k`. -/
def State.inStream (s : State) (k : Nat) : State := { s with draws := { s.draws with stream := k } }

/-- Engine `k` of a system. It draws its free values from stream `k`, whatever its stored state names, so that no two engines
share a draw: instances share nothing (R9, R241; DESIGN CHOICE, safe: log entry 17). The number `k` is the model's name for the
engine; the engine has no identifier (R241). -/
def System.engineAt (sys : System) (k : Nat) : Option Engine :=
  (sys.engines[k]?).map fun e => { e with state := e.state.inStream k }

/-- The 32 word registers of an engine take 128 bytes from its base, and each engine has its own (R52, R241): no two windows
overlap (DEDUCED, log entry 18). -/
abbrev System.wf (sys : System) : Prop :=
  sys.engines.Pairwise fun e f => e.base + 128 ≤ f.base ∨ f.base + 128 ≤ e.base

/-- A system right after every engine's reset (R251), its engines at the bases given. -/
def System.reset (bases : List Nat) : System :=
  { engines := bases.map fun b => { base := b, state := State.reset } }

/-- The word offset an address selects in an engine: `ENGINE_BASE + 4·n` selects `n` in 0..31 (R52, R53). -/
def Engine.select (e : Engine) (address : Nat) : Option (BitVec 5) :=
  if e.base ≤ address ∧ address < e.base + 128 ∧ (address - e.base) % 4 = 0 then
    some (BitVec.ofNat 5 ((address - e.base) / 4))
  else none

/-- One clock edge of engine `k` alone: no other engine takes part (R241). -/
def System.onEngine (k : Nat) (edge : State → Host.Outcome State Fault Refusal) (sys : System) :
    Host.Outcome System Fault Refusal :=
  match sys.engineAt k with
  | none => .next sys
  | some e =>
    match edge e.state with
    | .next s => .next { engines := sys.engines.set k { e with state := s } }
    | .fault f => .fault f
    | .refused r => .refused r

/-- The next clock edge of engine `k`, with the pins its own inputs name. -/
def System.stepEngine (k : Nat) (sys : System) : Host.Outcome System Fault Refusal := sys.onEngine k step

/-- The engine whose window holds an address, with the word offset selected there. -/
def System.route (sys : System) (address : Nat) : Option (Nat × BitVec 5) :=
  let k := sys.engines.findIdx fun e => (e.select address).isSome
  (sys.engines[k]?).bind fun e => (e.select address).map fun offset => (k, offset)

/-- A bus access at an address of the system: an edge of the engine it selects, with the other pins of `c`. At an address that
selects no engine no engine takes part; what the interconnect does there is outside the block (R53; log entry 16). -/
def System.access (address : Nat) (c : Cycle) (sys : System) : Host.Outcome System Fault Refusal :=
  match sys.route address with
  | none => .next sys
  | some (k, offset) => sys.onEngine k (clockEdge { c with sel := true, addr := offset })

end Sys2Proof.Machine
end

