-- ==== Sys2Proof/Machine/Hash.lean ====
section
/-!
DEFINITION. The source's `hash(input)` as a function of the message bytes (42_commands.md R190): the padding of the whole
message, its blocks, and the compression of each in order. The machine does not call it; statements compare the machine
with it.
-/

namespace Sys2Proof.Machine

/-- The 8-byte big-endian bit-length of a message of `L` bytes (R184). From 2^61 bytes on, where the source leaves padding and hash
undefined (R6, C1), it is 8·L modulo 2^64: DESIGN CHOICE, log entry 20. -/
def lengthSuffix (L : Nat) : List Byte := (List.range 8).map (lengthByte (BitVec.ofNat 64 (8 * L)))

/-- The least number of zero bytes after the 0x80 byte that leaves room for the suffix at a multiple of 64 bytes (R181). -/
def zeroBytes (L : Nat) : Nat := (119 - L % 64) % 64

/-- The padded message: 0x80, zero bytes, the length (R181, as the source states it over the whole message). For a
message of 2^61 bytes or more, of which the spec says nothing, it is the model's choice (log entry 20). -/
def padMessage (M : List Byte) : List Byte :=
  M ++ [0x80#8] ++ List.replicate (zeroBytes M.length) 0x00#8 ++ lengthSuffix M.length

/-- Block `k` of a padded message: its bytes `64k .. 64k + 63`. -/
def blockOf (bytes : List Byte) (k : Nat) : Vector Byte 64 := Vector.ofFn fun i => bytes.getD (64 * k + i.val) 0x00#8

/-- The first `n` blocks of a byte string compressed in order from a state (R190). -/
def compressBlocks (H : Vector Word 8) (bytes : List Byte) (n : Nat) : Vector Word 8 :=
  (List.range n).foldl (fun H k => compress H (blockOf bytes k)) H

/-- `hash(input)` as the eight digest words (R190); for a message of 2^61 bytes or more the model's choice (log entry 20). -/
def hashOf (M : List Byte) : Vector Word 8 := compressBlocks iv (padMessage M) ((padMessage M).length / 64)

end Sys2Proof.Machine
end

