-- ==== Sys2Proof/Machine/HostProgram.lean ====
section
/-!
DEFINITION. The host (00_scope.md R15): the notation of host programs and its expansions (30_encoding.md R88, R89), a host
that runs such a program against an engine, the end of a run and its observation (70_reset_and_hazards.md R262), and the
clock edges of a host that waits for each command (42_commands.md R190).
-/

namespace Sys2Proof.Machine

/-- The forms of R88. A label is a number. -/
inductive HostOp where
  | wr (r : Reg) (imm : Word)
  | rd (r : Reg)
  | cmd (i : Instr)
  | label (l : Nat)
  | branchIf (r : Reg) (mask : Word) (l : Nat)
  deriving DecidableEq, Repr

/-- The bus access of a form (R88), as the clock edge that carries it; a label has none. -/
def HostOp.cycle (lat : Latencies) : HostOp → Option Cycle
  | .wr r imm => some (writeCycle r imm lat)
  | .rd r => some (readCycle r lat)
  | .cmd i => some (writeCycle .cmd (encode i) lat)
  | .label _ => none
  | .branchIf r _ _ => some (readCycle r lat)

/-- `wait`, with `l` a fresh label (R89). -/
def waitOps (l : Nat) : List HostOp := [.label l, .branchIf .status 0x1#32 l]

/-- `absorb imm32, n` (R89). -/
def absorbOps (imm : Word) (n : BitVec 3) (l : Nat) : List HostOp :=
  [.wr .dataIn imm, .cmd (.absorb n)] ++ waitOps l

/-- `load_block w0, ..., w15` (R89). -/
def loadBlockOps (ws : Vector Word 16) : List HostOp := (List.finRange 16).map fun k => .wr (.block k) ws[k]

/-- `read_digest` (R89). -/
def readDigestOps : List HostOp := (List.finRange 8).map fun i => .rd (.digest i)

/-- A message in groups of four bytes from the start, the last one shorter (R89). -/
def groups : List Byte → List (List Byte)
  | b0 :: b1 :: b2 :: b3 :: rest => [b0, b1, b2, b3] :: groups rest
  | [] => []
  | rest => [rest]

/-- `BE32(group, zero-filled)` (R89). -/
def groupWord (g : List Byte) : Word := be32 (g.getD 0 0#8) (g.getD 1 0#8) (g.getD 2 0#8) (g.getD 3 0#8)

/-- The absorbs of `hash_bytes`, with fresh labels from `l` on (R89). -/
def absorbGroups : List (List Byte) → Nat → List HostOp
  | [], _ => []
  | g :: gs, l => absorbOps (groupWord g) (BitVec.ofNat 3 g.length) l ++ absorbGroups gs (l + 1)

/-- `hash_bytes b0 ... b(L-1)` (R89), its labels 0, 1, ... -/
def hashBytesOps (bytes : List Byte) : List HostOp :=
  [.cmd .init] ++ waitOps 0 ++ absorbGroups (groups bytes) 2 ++ [.cmd .finalize] ++ waitOps 1

/-- A host in the middle of a program, and its engine. `pc` is the host's own: the engine has none (R36). -/
structure HostRun where
  prog   : List HostOp
  pc     : Nat
  engine : State
  deriving DecidableEq, Repr

/-- Where a branch to `l` goes: the place of the label. A program without it ends there (DESIGN CHOICE,
log entry 9). -/
def HostRun.labelAt (h : HostRun) (l : Nat) : Nat := h.prog.findIdx fun op => op == .label l

/-- The host's next place once the access of `op` has been answered with `rdata` (R88). -/
def HostRun.nextPc (h : HostRun) (op : HostOp) (rdata : Word) : Nat :=
  match op with
  | .branchIf _ mask l => if rdata &&& mask ≠ 0#32 then h.labelAt l else h.pc + 1
  | .wr _ _ | .rd _ | .cmd _ | .label _ => h.pc + 1

/-- One step of a host that runs its program: a clock edge, with the latency parameters `lat` there, or a label passed. A host
that is `ready` makes the access of its next form at this edge, and one that is not makes none. The spec does not say how many
edges pass between two accesses: `ready` leaves every spacing open (DESIGN CHOICE, log entry 19). It names no step that passes a
label either: a ready host spends a step on it, which is no edge (DESIGN CHOICE, log entry 19). A program that has ended makes no
access. -/
def HostRun.step (ready : Bool) (lat : Latencies) (h : HostRun) : Host.Outcome HostRun Fault Refusal :=
  match if ready then h.prog[h.pc]? else none with
  | none =>
    match clockEdge (idleCycle lat) h.engine with
    | .next e => .next { h with engine := e }
    | .fault f => .fault f
    | .refused r => .refused r
  | some op =>
    match op.cycle lat with
    | none => .next { h with pc := h.pc + 1 }
    | some c =>
      match clockEdge c h.engine with
      | .next e => .next { h with pc := h.nextPc op e.rdata, engine := e }
      | .fault f => .fault f
      | .refused r => .refused r

/-- The program has made its last access: from its place on there are labels only, which have none (R88). -/
def HostRun.lastAccessMade (h : HostRun) : Bool := (h.prog.drop h.pc).all fun op => (op.cycle h.engine.lat).isNone

/-- A run ends when the program has made its last access and `busy = 0` (R262). The steps on which a host passes the labels still
before it are the model's own (DESIGN CHOICE, log entry 19): the end does not wait for them. -/
def HostRun.ended (h : HostRun) : Bool := h.lastAccessMade && !h.engine.busy

/-- The registers of R52 in the order of their offsets. -/
def allRegs : List Reg := (List.range 32).map fun a => regAt (BitVec.ofNat 5 a)

/-- The observation of a run (R262): every register as the host can then read it. -/
def State.observation (s : State) : List Word := allRegs.map fun r => memRead r s

/-- An edge at which the host neither writes nor resets: it reads or does nothing. -/
def Cycle.quiet (c : Cycle) : Bool := c.rstN && !(c.sel && c.we)

/-- How a host issues one command and waits for it: the latencies at the edge of its CMD write, and the quiet edges it lets pass
before its next write, polls of STATUS or others (R89, R265). -/
structure Waited where
  lat   : Latencies
  edges : List Cycle
  deriving DecidableEq, Repr

/-- The wait for `i` has quiet edges only, and no fewer than the latency of `i` (R260, R265). -/
def Waited.long (w : Waited) (i : Instr) : Bool := w.edges.all Cycle.quiet && decide (w.lat.of i ≤ w.edges.length)

/-- A command written and then waited for. -/
def commandCycles (i : Instr) (w : Waited) : List Cycle := writeCycle .cmd (encode i) w.lat :: w.edges

/-- A piece of a message for one ABSORB: its count and DATA_IN word, the quiet edges between its two writes, and the wait for the
ABSORB. -/
structure Piece where
  nbytes  : BitVec 3
  data    : Word
  between : List Cycle
  waited  : Waited
  deriving DecidableEq, Repr

/-- A piece of 1 to 4 bytes whose host waits for it. -/
def Piece.wellFormed (p : Piece) : Bool :=
  (Instr.absorb p.nbytes).wellFormed && p.between.all Cycle.quiet && p.waited.long (.absorb p.nbytes)

/-- The message bytes of a piece (R83). -/
def Piece.bytes (p : Piece) : List Byte := absorbedBytes p.nbytes p.data

/-- `absorb data, nbytes` (R89). -/
def Piece.cycles (p : Piece) : List Cycle :=
  writeCycle .dataIn p.data p.waited.lat :: (p.between ++ commandCycles (.absorb p.nbytes) p.waited)

/-- The command sequence of R190: INIT, one ABSORB for each piece, FINALIZE, each waited for. -/
def hashCycles (init : Waited) (pieces : List Piece) (final : Waited) : List Cycle :=
  commandCycles .init init ++ pieces.flatMap Piece.cycles ++ commandCycles .finalize final

end Sys2Proof.Machine
end

