-- ==== Sys2Proof/Safety.lean ====
section
/-!
DEFINITION. What statements call a good state and a safe run: the invariant of 10_state.md R38 with the facts about a pending
command that 70_reset_and_hazards.md R261 rests on, a run that never stops, and a digest the host may trust (R269).
-/

namespace Sys2Proof.Machine

/-- The command pending in a state: its word is legal and the checks of its issue would still pass (R260, R261). -/
def PendingSound (s : State) (p : Pending) : Prop :=
  1 ≤ p.left ∧ ∃ i, decode p.cmd = .ok i ∧ checkOf i { s with pending := none } = none

/-- The invariant (R38). `buf_fill < 64` and `msg_len < 2^64` hold by the types of the two fields. While a command is pending
the registers R38 speaks of are those from its issue (R261), so it is stated of busy states too. -/
structure EngineInv (s : State) : Prop where
  target_le : s.target.toNat ≤ 256
  msgLen_bytes : s.msgLen.toNat % 8 = 0
  fill_absorb : s.phase = .absorb → s.msgLen.toNat / 8 % 64 = s.bufFill.val
  fill_final : s.phase = .final → s.bufFill = 0
  pending_sound : ∀ p, s.pending = some p → PendingSound s p

/-- An INIT completes at an edge with these pins that is no reset: the pending one (R260), or one issued there with latency 0. -/
def InitCompletes (c : Cycle) (s : State) : Prop :=
  (∃ p, s.pending = some p ∧ p.left ≤ 1 ∧ decode p.cmd = .ok .init) ∨
  (s.pending = none ∧ c.sel = true ∧ c.we = true ∧ c.addr = 0#5 ∧ c.wdata = 1#32 ∧ c.lat.init = 0)

/-- No number of steps from the state ends in a fault or a refusal. -/
def NeverStops (s : State) : Prop := ∀ n, ∃ t : State, Sys2Proof.core.run n s = .next t

/-- A digest the host may use as a result: BUSY = 0, DIGEST_VALID = 1 and no error bit (R229, R269). -/
def State.digestTrusted (s : State) : Bool := !s.busy && s.digestValid && s.err == Errors.none

end Sys2Proof.Machine
end

