-- ==== Sys2Proof/Certificates/Slice0/Obligations.lean ====
section
/-!
DEFINITION. The statements about the model, one definition each; OBLIGATIONS.json lists them.
-/

open Sys2Proof Sys2Proof.Machine

/-! ## Command words -/

/-- R85: the seven legal words, every other word illegal, and the command each of the seven stands for. -/
def Obligations.LegalWordsAreTheSeven : Prop :=
  (∀ v : Word, (∃ i, decode v = .ok i) ↔
    v ∈ [0x00000001#32, 0x00000012#32, 0x00000022#32, 0x00000032#32, 0x00000042#32, 0x00000003#32, 0x00000004#32]) ∧
  decode 0x00000001#32 = .ok .init ∧
  decode 0x00000012#32 = .ok (.absorb 1#3) ∧ decode 0x00000022#32 = .ok (.absorb 2#3) ∧
  decode 0x00000032#32 = .ok (.absorb 3#3) ∧ decode 0x00000042#32 = .ok (.absorb 4#3) ∧
  decode 0x00000003#32 = .ok .compress ∧ decode 0x00000004#32 = .ok .finalize

/-- R81: the decoder accepts exactly the words for which `legal(v)` holds, written out on the bits of `v`; any other word, not
busy, raises ERR_ILLEGAL and has no other effect. -/
def Obligations.LegalityIsReadFromTheWordAlone : Prop :=
  ∀ v : Word,
    ((∃ i, decode v = .ok i) ↔
      v.extractLsb' 7 25 = 0#25 ∧
        ((v.extractLsb' 0 4 = 2#4 ∧ 1 ≤ (v.extractLsb' 4 3).toNat ∧ (v.extractLsb' 4 3).toNat ≤ 4) ∨
          ((v.extractLsb' 0 4 = 1#4 ∨ v.extractLsb' 0 4 = 3#4 ∨ v.extractLsb' 0 4 = 4#4) ∧
            v.extractLsb' 4 3 = 0#3))) ∧
    (¬ (∃ i, decode v = .ok i) → ∀ s : State, s.busy = false →
      memWrite .cmd v s = .next { s with err := { s.err with illegal := true } })

/-- R80, R82: decoding and encoding agree in both directions: a word decodes to an instruction exactly when the instruction is
well formed and the word is its encoding. -/
def Obligations.DecodeIsTheInverseOfEncode : Prop :=
  ∀ (v : Word) (i : Instr), decode v = .ok i ↔ (i.wellFormed = true ∧ encode i = v)

/-- One word of each command, and one reserved word of each kind, written out from R80 and R82. -/
def Obligations.SampleWordsDecode : Prop :=
  decode (0b0000000000000000000000000#25 ++ 0b000#3 ++ 0b0001#4) = .ok .init ∧
  decode (0b0000000000000000000000000#25 ++ 0b011#3 ++ 0b0010#4) = .ok (.absorb 3#3) ∧
  decode (0b0000000000000000000000000#25 ++ 0b000#3 ++ 0b0011#4) = .ok .compress ∧
  decode (0b0000000000000000000000000#25 ++ 0b000#3 ++ 0b0100#4) = .ok .finalize ∧
  decode 0x00000000#32 = .error .reservedOp ∧ decode 0x00000052#32 = .error .wrongNbytes ∧
  decode 0x00000014#32 = .error .wrongNbytes ∧ decode 0x80000001#32 = .error .reservedBitSet

/-! ## Registers -/

/-- R52: the offset of each register, and that the word offsets 0 to 31 and the registers are in one-to-one correspondence. -/
def Obligations.RegisterOffsetsAreOneToOne : Prop :=
  offsetOf .cmd = 0x00 ∧ offsetOf .status = 0x04 ∧ offsetOf .dataIn = 0x08 ∧ offsetOf .target = 0x0C ∧
  offsetOf .lzc = 0x10 ∧ offsetOf .msglenLo = 0x14 ∧ offsetOf .msglenHi = 0x18 ∧ offsetOf .reserved = 0x1C ∧
  (∀ i : Fin 8, offsetOf (.digest i) = 0x20 + 4 * i.val) ∧ (∀ k : Fin 16, offsetOf (.block k) = 0x40 + 4 * k.val) ∧
  (∀ r : Reg, regAt (addrOf r) = r) ∧ (∀ a : BitVec 5, addrOf (regAt a) = a)

/-- R55: what a read of each register returns. While busy, the engine-owned registers return any value; that this value is
`Config.anyRead` of the draw and the offset, a constant nothing is known of, is the model's form and no rule of the spec (log
entry 1). -/
def Obligations.ReadsReturnTheRegisters : Prop :=
  ∀ s : State,
    (memRead .cmd s = 0#32 ∧ memRead .dataIn s = s.dataIn ∧ (memRead .target s).toNat = s.target.toNat ∧
      memRead .reserved s = 0#32) ∧
    (s.busy = false →
      memRead .status s = s.statusWord ∧
      (memRead .lzc s).toNat = lzc s.H ∧
      memRead .msglenHi s ++ memRead .msglenLo s = s.msgLen ∧
      (∀ i : Fin 8, memRead (.digest i) s = s.H[i]) ∧
      (∀ k : Fin 16, memRead (.block k) s =
        s.buf[4 * k.val] ++ s.buf[4 * k.val + 1] ++ s.buf[4 * k.val + 2] ++ s.buf[4 * k.val + 3])) ∧
    (s.busy = true →
      ∀ r ∈ allRegs, r ∉ [Reg.cmd, .status, .dataIn, .target, .reserved] →
        memRead r s = Config.anyRead s.draws (addrOf r))

/-- R61: where every field of the STATUS word stands, and that the reserved bits are 0. -/
def Obligations.StatusFieldsArePlaced : Prop :=
  ∀ s : State,
    s.statusWord.getLsbD 0 = s.busy ∧
    s.statusWord.getLsbD 1 = decide (s.phase = .final) ∧
    s.statusWord.getLsbD 2 = (decide (s.phase = .final) && decide (s.target.toNat ≤ lzc s.H)) ∧
    s.statusWord.extractLsb' 3 5 = 0#5 ∧
    (s.statusWord.extractLsb' 8 6).toNat = s.bufFill.val ∧
    s.statusWord.extractLsb' 14 2 = 0#2 ∧
    s.statusWord.getLsbD 16 = s.err.illegal ∧ s.statusWord.getLsbD 17 = s.err.seq ∧
    s.statusWord.getLsbD 18 = s.err.busy ∧ s.statusWord.getLsbD 19 = s.err.len ∧
    s.statusWord.getLsbD 20 = s.err.target ∧
    s.statusWord.extractLsb' 21 11 = 0#11

/-- R57: while busy, STATUS reads exactly but for bits 1, 2 and 13:8, DATA_IN and TARGET read exactly, and the other
engine-owned registers read any value. That the open values are those of `Config.anyRead` of the draw and the offset, for the
STATUS bits the bits of one such word, is the model's form and no rule of the spec (log entry 1). -/
def Obligations.BusyReadsFixOnlyTheExactFields : Prop :=
  ∀ s : State, s.busy = true →
    (memRead .status s).getLsbD 0 = true ∧
    (∀ j : Fin 32, (memRead .status s).getLsbD j.val =
      if j.val = 1 ∨ j.val = 2 ∨ (8 ≤ j.val ∧ j.val ≤ 13) then
        (Config.anyRead s.draws (addrOf .status)).getLsbD j.val
      else s.statusWord.getLsbD j.val) ∧
    memRead .dataIn s = s.dataIn ∧ memRead .target s = s.target.setWidth 32 ∧
    memRead .lzc s = Config.anyRead s.draws 4#5 ∧
    memRead .msglenLo s = Config.anyRead s.draws 5#5 ∧ memRead .msglenHi s = Config.anyRead s.draws 6#5 ∧
    (∀ i : Fin 8, memRead (.digest i) s = Config.anyRead s.draws (addrOf (.digest i))) ∧
    (∀ k : Fin 16, memRead (.block k) s = Config.anyRead s.draws (addrOf (.block k)))

/-- R51, R58: an edge with a read does what the same edge with no access does, and `rdata` carries the register's value from
before the edge; of an idle engine no register changes. That the internal registers stay at an idle engine's edge too is the
model's choice and no rule of the spec (log entry 3): R32 to R34 leave them unspecified there. -/
def Obligations.ReadsHaveNoSideEffect : Prop :=
  ∀ (s : State) (c : Cycle) (rest : List Cycle), c.rstN = true → c.sel = true → c.we = false →
    (∀ t, step { s with inputs := { c with sel := false } :: rest } = .next t →
      step { s with inputs := c :: rest } = .next { t with rdata := memRead (regAt c.addr) s }) ∧
    (s.busy = false →
      step { s with inputs := c :: rest } =
        .next { s with inputs := rest, lat := c.lat, draws := s.draws.next, rdata := memRead (regAt c.addr) s })

/-- R56: what a write of each register does, refused or accepted. -/
def Obligations.WritesFollowTheRegisterMap : Prop :=
  ∀ (s : State) (v : Word),
    (s.busy = true → memWrite .cmd v s = .next { s with err := { s.err with busy := true } }) ∧
    (s.busy = false → memWrite .cmd v s = issueWord v s) ∧
    memWrite .dataIn v s = .next { s with dataIn := v } ∧
    (256 < v.toNat → memWrite .target v s = .next { s with err := { s.err with target := true } }) ∧
    (v.toNat ≤ 256 → ∃ w : BitVec 9, w.toNat = v.toNat ∧ memWrite .target v s = .next { s with target := w }) ∧
    (∀ k : Fin 16,
      (s.busy = true → memWrite (.block k) v s = .next { s with err := { s.err with busy := true } }) ∧
      (s.busy = false → ∃ b : Vector Byte 64, memWrite (.block k) v s = .next { s with buf := b } ∧
        b[4 * k.val] = v.extractLsb' 24 8 ∧ b[4 * k.val + 1] = v.extractLsb' 16 8 ∧
        b[4 * k.val + 2] = v.extractLsb' 8 8 ∧ b[4 * k.val + 3] = v.extractLsb' 0 8 ∧
        ∀ j : Fin 64, j.val / 4 ≠ k.val → b[j] = s.buf[j])) ∧
    (∀ r : Reg, (r = .status ∨ r = .lzc ∨ r = .msglenLo ∨ r = .msglenHi ∨ r = .reserved ∨ ∃ i, r = .digest i) →
      memWrite r v s = .next s)

/-- R67, R69: a BLOCKk written while not busy reads back as written, and no other BLOCK register, `buf_fill` or `msg_len`
changes. -/
def Obligations.BlockWriteReadsBack : Prop :=
  ∀ (s : State) (k : Fin 16) (v : Word), s.busy = false →
    ∃ t, memWrite (.block k) v s = .next t ∧ memRead (.block k) t = v ∧
      (∀ j : Fin 16, j ≠ k → memRead (.block j) t = memRead (.block j) s) ∧
      t.bufFill = s.bufFill ∧ t.msgLen = s.msgLen ∧ t.H = s.H ∧ t.err = s.err

/-- R20, R58: a write to any register but CMD changes none of `H`, `buf_fill`, `msg_len`, `phase`, `pending`, and issues
nothing. -/
def Obligations.OnlyCmdWritesDoMoreThanStore : Prop :=
  ∀ (s : State) (r : Reg) (v : Word), r ≠ .cmd →
    ∃ t, memWrite r v s = .next t ∧ t.H = s.H ∧ t.bufFill = s.bufFill ∧ t.msgLen = s.msgLen ∧
      t.phase = s.phase ∧ t.pending = s.pending ∧
      ((∃ k, r = .block k) ∨ t.buf = s.buf) ∧ (r = .dataIn ∨ t.dataIn = s.dataIn) ∧
      (r = .target ∨ t.target = s.target)

/-! ## Word functions and constants -/

/-- R104: Ch as its formula and bit by bit, with the corner cases and the example. -/
def Obligations.ChChoosesBitByBit : Prop :=
  (∀ x y z : Word, ch x y z = (x &&& y) ^^^ (~~~x &&& z)) ∧
  (∀ (x y z : Word) (i : Nat), (ch x y z).getLsbD i = if x.getLsbD i then y.getLsbD i else z.getLsbD i) ∧
  (∀ y z : Word, ch 0xffffffff#32 y z = y ∧ ch 0#32 y z = z) ∧
  ch 0x12345678#32 0x9abcdef0#32 0xdeadbeef#32 = 0xdebdfef7#32

/-- R105: Maj as its formula and bit by bit, with the corner cases and the example. -/
def Obligations.MajTakesTheMajorityOfEachBit : Prop :=
  (∀ x y z : Word, maj x y z = (x &&& y) ^^^ (x &&& z) ^^^ (y &&& z)) ∧
  (∀ (x y z : Word) (i : Nat), (maj x y z).getLsbD i =
    decide (2 ≤ (x.getLsbD i).toNat + (y.getLsbD i).toNat + (z.getLsbD i).toNat)) ∧
  (∀ x z : Word, maj x x z = x) ∧ (∀ x y z : Word, maj x y z = maj y x z ∧ maj x y z = maj x z y) ∧
  maj 0xffffffff#32 0x12345678#32 0x9abcdef0#32 = 0x9abcdef8#32

/-- R106 to R109: the four rotate and shift functions over cyclic rotation, with every value those rules list. -/
def Obligations.SigmaFunctionsRotateAndShift : Prop :=
  (∀ x : Word,
    bigSigma0 x = x.rotateRight 2 ^^^ x.rotateRight 13 ^^^ x.rotateRight 22 ∧
    bigSigma1 x = x.rotateRight 6 ^^^ x.rotateRight 11 ^^^ x.rotateRight 25 ∧
    smallSigma0 x = x.rotateRight 7 ^^^ x.rotateRight 18 ^^^ BitVec.ofNat 32 (x.toNat / 2 ^ 3) ∧
    smallSigma1 x = x.rotateRight 17 ^^^ x.rotateRight 19 ^^^ BitVec.ofNat 32 (x.toNat / 2 ^ 10)) ∧
  (bigSigma0 0#32 = 0#32 ∧ bigSigma0 0xffffffff#32 = 0xffffffff#32 ∧ bigSigma0 0x00000001#32 = 0x40080400#32 ∧
    bigSigma0 0x80000000#32 = 0x20040200#32 ∧ bigSigma0 0x12345678#32 = 0x66146474#32) ∧
  (bigSigma1 0#32 = 0#32 ∧ bigSigma1 0xffffffff#32 = 0xffffffff#32 ∧ bigSigma1 0x00000001#32 = 0x04200080#32 ∧
    bigSigma1 0x80000000#32 = 0x02100040#32 ∧ bigSigma1 0x12345678#32 = 0x3561abda#32) ∧
  (smallSigma0 0#32 = 0#32 ∧ smallSigma0 0xffffffff#32 = 0x1fffffff#32 ∧ smallSigma0 0x00000001#32 = 0x02004000#32 ∧
    smallSigma0 0x80000000#32 = 0x11002000#32 ∧ smallSigma0 0x12345678#32 = 0xe7fce6ee#32) ∧
  (smallSigma1 0#32 = 0#32 ∧ smallSigma1 0xffffffff#32 = 0x003fffff#32 ∧ smallSigma1 0x00000001#32 = 0x0000a000#32 ∧
    smallSigma1 0x80000000#32 = 0x00205000#32 ∧ smallSigma1 0x12345678#32 = 0xa1f78649#32)

/-- R102: each round constant is the first 32 fractional bits of the cube root of the (t+1)-th prime, stated on integers: `r` is
the cube root times 2^32 rounded down. -/
def Obligations.RoundConstantsAreCubeRootsOfPrimes : Prop :=
  ∀ t : Fin 64, ∃ p r : Nat, p.Prime ∧ ((List.range p).filter fun q => decide q.Prime).length = t.val ∧
    r ^ 3 ≤ p * 2 ^ 96 ∧ p * 2 ^ 96 < (r + 1) ^ 3 ∧ kTable[t].toNat = r % 2 ^ 32

/-- R101: the words of the IV as the source lists them, and each the first 32 fractional bits of the square root of the
(i+1)-th prime. -/
def Obligations.InitializationVectorIsSquareRootsOfPrimes : Prop :=
  iv = #v[0x6a09e667#32, 0xbb67ae85#32, 0x3c6ef372#32, 0xa54ff53a#32,
    0x510e527f#32, 0x9b05688c#32, 0x1f83d9ab#32, 0x5be0cd19#32] ∧
  ∀ i : Fin 8, ∃ p r : Nat, p.Prime ∧ ((List.range p).filter fun q => decide q.Prime).length = i.val ∧
    r ^ 2 ≤ p * 2 ^ 64 ∧ p * 2 ^ 64 < (r + 1) ^ 2 ∧ iv[i].toNat = r % 2 ^ 32

/-! ## The block compression -/

/-- R131: the schedule's first sixteen words are the block's, big-endian, every later word follows the recurrence, and the
padded block of "abc" gives the words of the rule's example. -/
def Obligations.ScheduleFollowsTheRecurrence : Prop :=
  (∀ B : Vector Byte 64,
    (∀ t : Nat, (h : t < 16) → (schedule B)[t] = B[4 * t] ++ B[4 * t + 1] ++ B[4 * t + 2] ++ B[4 * t + 3]) ∧
    (∀ t : Nat, (h : 16 ≤ t ∧ t < 64) → (schedule B)[t] =
      smallSigma1 (schedule B)[t - 2] + (schedule B)[t - 7] + smallSigma0 (schedule B)[t - 15] + (schedule B)[t - 16])) ∧
  (let W := schedule (blockOf (padMessage [0x61#8, 0x62#8, 0x63#8]) 0)
   W[0] = 0x61626380#32 ∧ W[15] = 0x00000018#32 ∧ W[16] = 0x61626380#32 ∧ W[17] = 0x000f0000#32 ∧
     W[63] = 0x12b1edeb#32)

/-- R140 to R145: `compress(H, B)` loads the working vector from `H`, replaces it 64 times by the round equations with `K[t]` and
`W[t]` for t = 0, 1, ..., 63, and adds the last one to `H` word by word. -/
def Obligations.CompressRunsTheSixtyFourRounds : Prop :=
  ∀ (H : Vector Word 8) (B : Vector Byte 64), ∃ w : Nat → Work,
    w 0 = { a := H[0], b := H[1], c := H[2], d := H[3], e := H[4], f := H[5], g := H[6], h := H[7] } ∧
    (∀ t : Fin 64, ∃ t1 t2 : Word,
      t1 = (w t).h + bigSigma1 (w t).e + ch (w t).e (w t).f (w t).g + kTable[t] + (schedule B)[t] ∧
      t2 = bigSigma0 (w t).a + maj (w t).a (w t).b (w t).c ∧
      w (t + 1) = { a := t1 + t2, b := (w t).a, c := (w t).b, d := (w t).c,
                    e := (w t).d + t1, f := (w t).e, g := (w t).f, h := (w t).g }) ∧
    compress H B = #v[H[0] + (w 64).a, H[1] + (w 64).b, H[2] + (w 64).c, H[3] + (w 64).d,
      H[4] + (w 64).e, H[5] + (w 64).f, H[6] + (w 64).g, H[7] + (w 64).h]

/-- R146 and R147: the two corner blocks from the IV, and the padded "abc". -/
def Obligations.CompressGivesTheKnownBlocks : Prop :=
  compress iv (Vector.replicate 64 0x00#8) =
    #v[0xda5698be#32, 0x17b9b469#32, 0x62335799#32, 0x779fbeca#32, 0x8ce5d491#32, 0xc0d26243#32, 0xbafef9ea#32,
      0x1837a9d8#32] ∧
  compress iv (Vector.replicate 64 0xff#8) =
    #v[0xef0c748d#32, 0xf4da50a8#32, 0xd6c43c01#32, 0x3edc3ce7#32, 0x6c9d9fa9#32, 0xa1458ade#32, 0x56eb86c0#32,
      0xa64492d2#32] ∧
  hashOf [0x61#8, 0x62#8, 0x63#8] =
    #v[0xba7816bf#32, 0x8f01cfea#32, 0x414140de#32, 0x5dae2223#32, 0xb00361a3#32, 0x96177a9c#32, 0xb410ff61#32,
      0xf20015ad#32]

/-! ## The commands -/

/-- R160, R161: INIT with latency 0, in either phase: its effect, what it leaves alone, and what then reads as the status and
the count; with a latency it is pending and nothing else has changed. That the internal registers stay too is the model's
choice (log entry 3). -/
def Obligations.InitReinitialises : Prop :=
  ∀ s : State, s.busy = false →
    (s.lat.init = 0 → ∃ t,
      exec .init s = .next t ∧
      t = { s with
        H := #v[0x6a09e667#32, 0xbb67ae85#32, 0x3c6ef372#32, 0xa54ff53a#32,
          0x510e527f#32, 0x9b05688c#32, 0x1f83d9ab#32, 0x5be0cd19#32]
        msgLen := 0#64, bufFill := 0, phase := .absorb
        err := { illegal := false, seq := false, busy := false, len := false, target := false } } ∧
      memRead .status t = 0#32 ∧ memRead .lzc t = 1#32) ∧
    (s.lat.init ≠ 0 →
      exec .init s = .next { s with pending := some { cmd := 0x00000001#32, data := s.dataIn, left := s.lat.init } })

/-- R165: an ABSORB of latency 0 whose bytes do not fill the block: they follow those in the buffer, and nothing is
compressed. That the internal registers stay is the model's choice (log entry 3). -/
def Obligations.AbsorbAppendsWithinTheBlock : Prop :=
  ∀ (s : State) (n : BitVec 3), s.busy = false → 1 ≤ n.toNat → n.toNat ≤ 4 → s.phase = .absorb →
    s.msgLen.toNat + 8 * n.toNat < 2 ^ 64 → s.lat.absorb = 0 → s.bufFill.val + n.toNat < 64 →
    ∃ t, exec (.absorb n) s = .next t ∧
      t = { s with buf := t.buf, bufFill := t.bufFill, msgLen := t.msgLen } ∧
      t.bufFill.val = s.bufFill.val + n.toNat ∧ t.msgLen.toNat = s.msgLen.toNat + 8 * n.toNat ∧
      (∀ (j : Nat) (hj : s.bufFill.val + j < 64), j < n.toNat →
        t.buf[s.bufFill.val + j] = s.dataIn.extractLsb' (24 - 8 * j) 8) ∧
      (∀ i : Fin 64, (i.val < s.bufFill.val ∨ s.bufFill.val + n.toNat ≤ i.val) → t.buf[i] = s.buf[i])

/-- R165, R166: an ABSORB of latency 0 whose bytes reach the 64th place: the block so filled is compressed once, and the bytes
left over begin the next block. -/
def Obligations.AbsorbCompressesAFilledBlock : Prop :=
  ∀ (s : State) (n : BitVec 3), s.busy = false → 1 ≤ n.toNat → n.toNat ≤ 4 → s.phase = .absorb →
    s.msgLen.toNat + 8 * n.toNat < 2 ^ 64 → s.lat.absorb = 0 → 64 ≤ s.bufFill.val + n.toNat →
    ∃ (t : State) (B : Vector Byte 64), exec (.absorb n) s = .next t ∧
      (∀ i : Fin 64, B[i] = if i.val < s.bufFill.val then s.buf[i]
        else s.dataIn.extractLsb' (24 - 8 * (i.val - s.bufFill.val)) 8) ∧
      t = { s with
        H := compress s.H B, buf := t.buf, bufFill := t.bufFill, msgLen := t.msgLen, dp := t.dp } ∧
      t.bufFill.val = s.bufFill.val + n.toNat - 64 ∧ t.msgLen.toNat = s.msgLen.toNat + 8 * n.toNat ∧
      (∀ i : Fin 64, t.buf[i] = if i.val < s.bufFill.val + n.toNat - 64 then
        s.dataIn.extractLsb' (24 - 8 * (64 - s.bufFill.val + i.val)) 8 else B[i])

/-- R175, R176: COMPRESS with latency 0 compresses the buffer as it stands and counts 512 bits; all else is unchanged but the
internal registers. -/
def Obligations.CompressTakesTheRawBlock : Prop :=
  ∀ s : State, s.busy = false → s.phase = .absorb → s.bufFill = 0 → s.msgLen.toNat + 512 < 2 ^ 64 →
    s.lat.compress = 0 →
    ∃ t, exec .compress s = .next t ∧
      t = { s with H := compress s.H s.buf, msgLen := t.msgLen, dp := t.dp } ∧
      t.msgLen.toNat = s.msgLen.toNat + 512 ∧ t.digestValid = false ∧ t.meets = false

/-- R175, R176: COMPRESS of a whole block in the buffer leaves `H`, `buf`, `buf_fill` and `msg_len` as sixteen ABSORBs of the
block's words in order do, so that blocks given one way and the other make one message. -/
def Obligations.CompressIsAbsorbingTheWholeBlock : Prop :=
  ∀ s : State, s.busy = false → s.phase = .absorb → s.bufFill = 0 → s.msgLen.toNat + 512 < 2 ^ 64 →
    s.lat.compress = 0 →
    ∃ t, exec .compress s = .next t ∧
      (let u := (List.finRange 16).foldl (fun u k => effectAbsorb 4#3 (memRead (.block k) s) u) s
       u.H = t.H ∧ u.buf = t.buf ∧ u.bufFill = t.bufFill ∧ u.msgLen = t.msgLen ∧ u.phase = t.phase)

/-- R180 to R184: FINALIZE with latency 0 and room for the length: one block, its every byte given. -/
def Obligations.FinalizePadsIntoOneBlock : Prop :=
  ∀ s : State, s.busy = false → s.phase = .absorb → s.lat.finalize = 0 → s.bufFill.val ≤ 55 →
    ∃ t, exec .finalize s = .next t ∧
      t = { s with H := compress s.H t.buf, buf := t.buf, bufFill := 0, phase := .final, dp := t.dp } ∧
      t.digestValid = true ∧
      (∀ i : Fin 64, t.buf[i] =
        if i.val < s.bufFill.val then s.buf[i] else if i.val = s.bufFill.val then 0x80#8
        else if i.val < 56 then 0x00#8 else s.msgLen.extractLsb' (56 - 8 * (i.val - 56)) 8)

/-- R180 to R184: FINALIZE with latency 0 and no room for the length: the message's tail fills one block, and a second holds 56
zero bytes and the length. -/
def Obligations.FinalizePadsIntoTwoBlocks : Prop :=
  ∀ s : State, s.busy = false → s.phase = .absorb → s.lat.finalize = 0 → 56 ≤ s.bufFill.val →
    ∃ (t : State) (B : Vector Byte 64), exec .finalize s = .next t ∧
      (∀ i : Fin 64, B[i] = if i.val < s.bufFill.val then s.buf[i] else if i.val = s.bufFill.val then 0x80#8 else 0x00#8) ∧
      t = { s with
        H := compress (compress s.H B) t.buf, buf := t.buf, bufFill := 0, phase := .final, dp := t.dp } ∧
      t.digestValid = true ∧
      (∀ i : Fin 64, t.buf[i] =
        if i.val < 56 then 0x00#8 else s.msgLen.extractLsb' (56 - 8 * (i.val - 56)) 8)

/-- R260: a command that passes its checks and has a latency is pending with its word and the DATA_IN of its issue, so that
BUSY = 1 from the next read; nothing else has changed. That the internal registers stay too is the model's choice (log entry 3). -/
def Obligations.IssuedCommandIsPending : Prop :=
  ∀ (s : State) (i : Instr), i.wellFormed = true → s.busy = false →
    (i ≠ .init → s.phase = .absorb) → (i = .compress → s.bufFill = 0 ∧ s.msgLen.toNat + 512 < 2 ^ 64) →
    (∀ n, i = .absorb n → s.msgLen.toNat + 8 * n.toNat < 2 ^ 64) → s.lat.of i ≠ 0 →
    ∃ t, exec i s = .next t ∧
      t = { s with pending := some { cmd := encode i, data := s.dataIn, left := s.lat.of i } } ∧
      (memRead .status t).getLsbD 0 = true

/-- R260, R261: a command that passes its checks is complete after the edges of its latency and at none of the edges before,
whatever accesses the host makes meanwhile. It then leaves `H`, `buf`, `buf_fill`, `msg_len` and `phase` as its effect applied at
issue does; where no edge meanwhile is a write, also DATA_IN, TARGET and the error bits. An INIT leaves the error bits clear
whatever the host writes meanwhile, but for the one bit raised by a write refused at its completion edge, which is left open (log
entry 4). That the completion edge is the last of `LAT` edges after the issue edge is the model's reading of R260 (log entry 12). -/
def Obligations.CommandCompletesAfterItsLatency : Prop :=
  ∀ (s : State) (i : Instr) (cs rest : List Cycle), i.wellFormed = true → s.busy = false → checkOf i s = none →
    cs.length = s.lat.of i → (∀ c ∈ cs, c.rstN = true) →
    ∃ t u : State, exec i { s with inputs := cs ++ rest } = .next t ∧ Sys2Proof.core.run cs.length t = .next u ∧
      (∀ n, n < cs.length → ∃ v : State, Sys2Proof.core.run n t = .next v ∧ v.busy = true) ∧
      u.busy = false ∧ u.inputs = rest ∧
      u.H = (effectOf i s.dataIn s).H ∧ u.buf = (effectOf i s.dataIn s).buf ∧
      u.bufFill = (effectOf i s.dataIn s).bufFill ∧ u.msgLen = (effectOf i s.dataIn s).msgLen ∧
      u.phase = (effectOf i s.dataIn s).phase ∧
      ((∀ c ∈ cs, ¬ (c.sel = true ∧ c.we = true)) →
        u.dataIn = s.dataIn ∧ u.target = s.target ∧ u.err = (effectOf i s.dataIn s).err) ∧
      (i = .init →
        u.err.illegal = false ∧ u.err.seq = false ∧ u.err.len = false ∧
        ((∀ c, cs.getLast? = some c →
          ¬ (c.sel = true ∧ c.we = true ∧ (regAt c.addr = .cmd ∨ ∃ k, regAt c.addr = .block k))) → u.err.busy = false) ∧
        ((∀ c, cs.getLast? = some c →
          ¬ (c.sel = true ∧ c.we = true ∧ regAt c.addr = .target ∧ 256 < c.wdata.toNat)) → u.err.target = false))

/-- An instruction's meaning is the write of its word to CMD, for the ill-formed ABSORB counts too, whose words are illegal. This
is the model's reading of what an instruction term means (log entry 14): R60 speaks of words written only. -/
def Obligations.MeaningIsTheCommandWrite : Prop :=
  ∀ (i : Instr) (s : State), memWrite .cmd (encode i) s = exec i s

/-- R26, R27: no command changes DATA_IN or TARGET, nor the clock edges to come, the latency parameters, the draw or the
`rdata` port. -/
def Obligations.CommandsKeepDataInAndTarget : Prop :=
  ∀ (i : Instr) (s : State), ∃ t, exec i s = .next t ∧
    t.dataIn = s.dataIn ∧ t.target = s.target ∧ t.inputs = s.inputs ∧ t.lat = s.lat ∧ t.draws = s.draws ∧
    t.rdata = s.rdata

/-! ## Errors -/

/-- R226: the checks of a write to CMD in their order, read off the bits of the word, and the single checks of BLOCKk and
TARGET. -/
def Obligations.WriteChecksComeInOrder : Prop :=
  ∀ (s : State) (v : Word),
    (s.busy = true → memWrite .cmd v s = .next (s.raise .busy)) ∧
    (s.busy = false → legal v = false → memWrite .cmd v s = .next (s.raise .illegal)) ∧
    (s.busy = false → legal v = true → v.extractLsb' 0 4 ≠ 1#4 → s.phase = .final →
      memWrite .cmd v s = .next (s.raise .seq)) ∧
    (s.busy = false → v = 3#32 → s.phase = .absorb → s.bufFill ≠ 0 → memWrite .cmd v s = .next (s.raise .seq)) ∧
    (s.busy = false → legal v = true → s.phase = .absorb →
      ((v.extractLsb' 0 4 = 2#4 ∧ 2 ^ 64 ≤ s.msgLen.toNat + 8 * (v.extractLsb' 4 3).toNat) ∨
        (v = 3#32 ∧ s.bufFill = 0 ∧ 2 ^ 64 ≤ s.msgLen.toNat + 512)) →
      memWrite .cmd v s = .next (s.raise .len)) ∧
    (s.busy = false →
      (v = 1#32 ∨
        (s.phase = .absorb ∧
          ((legal v = true ∧ v.extractLsb' 0 4 = 2#4 ∧ s.msgLen.toNat + 8 * (v.extractLsb' 4 3).toNat < 2 ^ 64) ∨
            (v = 3#32 ∧ s.bufFill = 0 ∧ s.msgLen.toNat + 512 < 2 ^ 64) ∨ v = 4#32))) →
      ∃ i, decode v = .ok i ∧
        memWrite .cmd v s = .next (s.issue v (s.lat.of i) (effectOf i s.dataIn))) ∧
    (∀ k : Fin 16, s.busy = true → memWrite (.block k) v s = .next (s.raise .busy)) ∧
    (∀ k : Fin 16, s.busy = false → ∃ b, memWrite (.block k) v s = .next { s with buf := b }) ∧
    (256 < v.toNat → memWrite .target v s = .next (s.raise .target)) ∧
    (v.toNat ≤ 256 → ∃ w, memWrite .target v s = .next { s with target := w })

/-- R220, R227: a refused write sets one error bit, which the next read of STATUS shows at its place, keeps every bit already
set, and changes no other register; and any write that changes an error bit is a refused one or an INIT that completes. -/
def Obligations.RefusedWriteSetsOneBitAndNothingElse : Prop :=
  (∀ (s : State) (b : ErrBit),
    s.raise b = { s with err := (s.raise b).err } ∧
    (∀ b', (s.raise b).err.get b' = (decide (b' = b) || s.err.get b')) ∧
    (memRead .status (s.raise b)).getLsbD
      (match b with | .illegal => 16 | .seq => 17 | .busy => 18 | .len => 19 | .target => 20) = true) ∧
  (∀ (s : State) (r : Reg) (v : Word) (t : State), memWrite r v s = .next t → t.err ≠ s.err →
    (∃ b, t = s.raise b) ∨ (r = .cmd ∧ v = 1#32 ∧ t.err = Errors.none))

/-- R28, R160: the five error bits. The reset state has none set, and a reset edge clears all five. An INIT of latency 0 clears
all five. At the completion edge of a pending INIT, ERR_ILLEGAL, ERR_SEQ and ERR_LEN are clear afterwards, ERR_BUSY is clear
unless a CMD or BLOCKk write is refused at that very edge, and ERR_TARGET unless a TARGET write is: only the bit raised at that
edge is left open (log entry 4). At every other edge a set bit stays set. -/
def Obligations.ErrorBitsStayUntilInitOrReset : Prop :=
  State.reset.err = Errors.none ∧
  (∀ (s : State), s.busy = false → s.lat.init = 0 → ∃ t, exec .init s = .next t ∧ t.err = Errors.none) ∧
  (∀ (s : State) (c : Cycle) (rest : List Cycle), s.inputs = c :: rest → c.rstN = false →
    ∃ t, step s = .next t ∧ t.err = Errors.none) ∧
  (∀ (s : State) (c : Cycle) (rest : List Cycle) (p : Pending), s.inputs = c :: rest → c.rstN = true →
    s.pending = some p → p.left ≤ 1 → decode p.cmd = .ok .init →
    ∃ t, step s = .next t ∧ t.err.illegal = false ∧ t.err.seq = false ∧ t.err.len = false ∧
      (¬ (c.sel = true ∧ c.we = true ∧ (regAt c.addr = .cmd ∨ ∃ k, regAt c.addr = .block k)) → t.err.busy = false) ∧
      (¬ (c.sel = true ∧ c.we = true ∧ regAt c.addr = .target ∧ 256 < c.wdata.toNat) → t.err.target = false)) ∧
  (∀ (s : State) (c : Cycle) (rest : List Cycle) (t : State) (b : ErrBit), s.inputs = c :: rest → c.rstN = true →
    step s = .next t → s.err.get b = true → ¬ InitCompletes c s → t.err.get b = true)

/-- R222, R265: a host that writes CMD or a BLOCKk only when the engine is not busy never raises ERR_BUSY, whatever else it does. -/
def Obligations.WaitingHostNeverRaisesErrBusy : Prop :=
  ∀ (s : State) (c : Cycle) (rest : List Cycle) (t : State), s.inputs = c :: rest →
    (c.rstN = true → c.sel = true → c.we = true → (regAt c.addr = .cmd ∨ ∃ k, regAt c.addr = .block k) →
      s.busy = false) →
    step s = .next t → t.err.busy = true → s.err.busy = true

/-- R192, R223: in phase FINAL, ABSORB, COMPRESS and FINALIZE are refused with ERR_SEQ. From a state of the invariant in phase
FINAL, an edge that is no reset and at which no INIT completes leaves `H`, the phase and `msg_len` as they were, whatever the
host does at it; an edge at which an INIT completes leaves the IV, phase ABSORB and length 0. -/
def Obligations.DigestStaysUntilInitOrReset : Prop :=
  (∀ s : State, s.busy = false → s.phase = .final →
    (∀ n : BitVec 3, 1 ≤ n.toNat → n.toNat ≤ 4 → exec (.absorb n) s = .next (s.raise .seq)) ∧
    exec .compress s = .next (s.raise .seq) ∧ exec .finalize s = .next (s.raise .seq)) ∧
  (∀ (s : State) (c : Cycle) (rest : List Cycle), EngineInv s → s.phase = .final → s.inputs = c :: rest → c.rstN = true →
    ∃ t, step s = .next t ∧
      (¬ InitCompletes c s → t.H = s.H ∧ t.phase = .final ∧ t.msgLen = s.msgLen) ∧
      (InitCompletes c s → t.H = iv ∧ t.phase = .absorb ∧ t.msgLen = 0#64))

/-! ## Clock edges, reset and completion -/

/-- R51, R60, R84: an edge of an idle engine with `rst_n`, `sel` and `we` set is the write of `wdata` to the register at `addr`,
in the state in which the edge has begun, and nothing is added after it. At CMD, a word that decodes runs its instruction there,
and a word that does not decode raises ERR_ILLEGAL. Three things here are the model's choices and no rules of the spec: the begun
state's own fields, with `rdata` a free value at an edge that reads nothing (log entry 2); that the internal registers stay in the
begun state (log entry 3); and that a program's word comes to the engine as the next input, so that a word placed by
`withFetchWord` is what the next step runs (log entry 7). -/
def Obligations.StepRunsTheDecodedCommand : Prop :=
  (∀ (s : State) (c : Cycle) (rest : List Cycle), s.inputs = c :: rest → c.rstN = true → c.sel = true → c.we = true →
    s.busy = false →
    step s = memWrite (regAt c.addr) c.wdata (State.beginEdge { s with inputs := rest } c) ∧
    (c.addr = 0#5 →
      (∀ i, decode c.wdata = .ok i → step s = exec i (State.beginEdge { s with inputs := rest } c)) ∧
      (∀ e, decode c.wdata = .error e →
        step s = .next ((State.beginEdge { s with inputs := rest } c).raise .illegal)))) ∧
  (∀ (s : State) (nbits w : Nat) (i : Instr), decodeTableWord nbits w = some i → s.busy = false →
    step (s.withFetchWord nbits w) = exec i (s.beginEdge (writeCycle .cmd (tableWord nbits w) s.lat)))

/-- R51, R56, R267: the edge of a busy engine, the one at which its legal command completes included. A write to DATA_IN takes
`wdata` and a write to TARGET a value of at most 256; any other edge leaves the two as they were. Unless an INIT completes, a
write to CMD or BLOCKk raises ERR_BUSY, a write of more than 256 to TARGET raises ERR_TARGET, and any other edge leaves the error
bits as they were (R230: a completion raises none). That a write accepted at a completion edge stays is the model's inference
(log entry 11). -/
def Obligations.BusyEdgesTakeDataInAndTargetWrites : Prop :=
  ∀ (s : State) (c : Cycle) (rest : List Cycle) (p : Pending), s.inputs = c :: rest → c.rstN = true →
    s.pending = some p → (1 < p.left ∨ ∃ i, decode p.cmd = .ok i) →
    ∃ t, step s = .next t ∧ t.inputs = rest ∧
      t.dataIn = (if c.sel = true ∧ c.we = true ∧ regAt c.addr = .dataIn then c.wdata else s.dataIn) ∧
      t.target.toNat = (if c.sel = true ∧ c.we = true ∧ regAt c.addr = .target ∧ c.wdata.toNat ≤ 256
        then c.wdata.toNat else s.target.toNat) ∧
      (¬ InitCompletes c s →
        t.err = if c.sel = true ∧ c.we = true ∧ (regAt c.addr = .cmd ∨ ∃ k, regAt c.addr = .block k) then s.err.set .busy
          else if c.sel = true ∧ c.we = true ∧ regAt c.addr = .target ∧ 256 < c.wdata.toNat then s.err.set .target
          else s.err)

/-- R228, R260: the edge at which a command completes. Where it carries a write to CMD or BLOCKk and the command is not INIT, the
write sees `busy = 1`: it is refused with ERR_BUSY and lost, and the command's effect is applied. Where it carries no write, the
effect is applied, DATA_IN and TARGET stay (R26, R27), and so do the error bits (R230) unless the command is INIT, which clears
them (R160). -/
def Obligations.CompletionEdgeRefusesAWrite : Prop :=
  ∀ (s : State) (c : Cycle) (rest : List Cycle) (p : Pending) (i : Instr),
    s.inputs = c :: rest → c.rstN = true → s.pending = some p → p.left ≤ 1 → decode p.cmd = .ok i →
    (c.sel = true → c.we = true → (regAt c.addr = .cmd ∨ ∃ k, regAt c.addr = .block k) → i ≠ .init →
      ∃ t, step s = .next t ∧ t.pending = none ∧ t.err = s.err.set .busy ∧
        t.H = (effectOf i p.data s).H ∧ t.buf = (effectOf i p.data s).buf ∧
        t.bufFill = (effectOf i p.data s).bufFill ∧ t.msgLen = (effectOf i p.data s).msgLen ∧
        t.phase = (effectOf i p.data s).phase ∧ t.dataIn = s.dataIn ∧ t.target = s.target) ∧
    (¬ (c.sel = true ∧ c.we = true) →
      ∃ t, step s = .next t ∧ t.pending = none ∧ (i ≠ .init → t.err = s.err) ∧ (i = .init → t.err = Errors.none) ∧
        t.H = (effectOf i p.data s).H ∧ t.buf = (effectOf i p.data s).buf ∧
        t.bufFill = (effectOf i p.data s).bufFill ∧ t.msgLen = (effectOf i p.data s).msgLen ∧
        t.phase = (effectOf i p.data s).phase ∧ t.dataIn = s.dataIn ∧ t.target = s.target)

/-- R54, R261: an edge that neither resets nor completes the pending command leaves `H`, `buf`, `buf_fill`, `msg_len`, `phase` and
the captured word and data as they were, whatever the host does at it. The clause `t.dp = s.dp` is the model's choice and no rule
of the spec (log entry 3): R32 to R34 leave the internal registers unspecified then. -/
def Obligations.BusyEdgesKeepTheEngineRegisters : Prop :=
  ∀ (s : State) (c : Cycle) (rest : List Cycle) (p : Pending),
    s.inputs = c :: rest → c.rstN = true → s.pending = some p → 1 < p.left →
    ∃ t, step s = .next t ∧ t.pending = some { cmd := p.cmd, data := p.data, left := p.left - 1 } ∧
      t.H = s.H ∧ t.buf = s.buf ∧ t.bufFill = s.bufFill ∧ t.msgLen = s.msgLen ∧ t.phase = s.phase ∧ t.dp = s.dp

/-- R250, R251: an edge with `rst_n = 0`, whatever `sel` and `we` are and whatever was pending, leaves every register at its
reset value, with the reads R251 lists; the next input is the next edge's. The internal registers, whose reset value is
unspecified, are not mentioned. The clause about `rdata` says in the model's form, a free value (log entry 2), that R250 lets the
port carry any value there. -/
def Obligations.ResetEdgeSetsEveryRegister : Prop :=
  ∀ (s : State) (c : Cycle) (rest : List Cycle), s.inputs = c :: rest → c.rstN = false →
    ∃ t, step s = .next t ∧
      t.H = #v[0x6a09e667#32, 0xbb67ae85#32, 0x3c6ef372#32, 0xa54ff53a#32,
        0x510e527f#32, 0x9b05688c#32, 0x1f83d9ab#32, 0x5be0cd19#32] ∧
      t.buf = Vector.replicate 64 0x00#8 ∧ t.bufFill = 0 ∧ t.msgLen = 0#64 ∧ t.phase = .absorb ∧
      t.dataIn = 0#32 ∧ t.target = 0#9 ∧
      t.err = { illegal := false, seq := false, busy := false, len := false, target := false } ∧
      t.pending = none ∧ t.digestValid = false ∧ t.meets = false ∧ t.rdata = Config.anyRdata s.draws ∧
      t.inputs = rest ∧
      memRead .status t = 0#32 ∧ memRead .lzc t = 1#32 ∧ (∀ i : Fin 8, memRead (.digest i) t = iv[i]) ∧
      (∀ r : Reg, r ≠ .lzc → (∀ i, r ≠ .digest i) → memRead r t = 0#32)

/-- R252: the state after a reset is the one a completed INIT leaves, but for `buf`, DATA_IN and TARGET, which INIT keeps. The
last clause about the internal registers is the model's (log entries 3 and 5): it is left out. -/
def Obligations.ResetEqualsInitButForKeptRegisters : Prop :=
  ∀ s : State, s.busy = false → s.lat.init = 0 →
    ∃ t, exec .init s = .next t ∧
      t.H = State.reset.H ∧ t.bufFill = State.reset.bufFill ∧ t.msgLen = State.reset.msgLen ∧
      t.phase = State.reset.phase ∧ t.err = State.reset.err ∧ t.pending = State.reset.pending ∧
      t.buf = s.buf ∧ t.dataIn = s.dataIn ∧ t.target = s.target

/-- R260: with no reset at the edges its latency has left, a pending command completes at the last of them, whatever accesses the
host makes, and no sooner. That it completes at all is the model's choice, which R270 tells a model to assume (log entry 10), and
the count of edges is the model's reading of R260 (log entry 12). -/
def Obligations.PendingCommandEndsInBoundedTime : Prop :=
  ∀ (s : State) (p : Pending), EngineInv s → s.pending = some p → (∀ c ∈ s.inputs.take p.left, c.rstN = true) →
    (∃ t : State, Sys2Proof.core.run p.left s = .next t ∧ t.busy = false) ∧
    (∀ n, n < p.left → ∃ t : State, Sys2Proof.core.run n s = .next t ∧ t.busy = true)

/-! ## The leading-zero count -/

/-- R201: LZC is the number of leading zero bits of the 256-bit number H[0] ... H[7], H[0] most significant. -/
def Obligations.LzcCountsTheLeadingZerosOfTheDigest : Prop :=
  ∀ (H : Vector Word 8) (n : Nat),
    n = (H[0] ++ H[1] ++ H[2] ++ H[3] ++ H[4] ++ H[5] ++ H[6] ++ H[7]).toNat →
    lzc H = if n = 0 then 256 else 255 - Nat.log2 n

/-- R202: the range of LZC and the source's and the spec's corner cases. -/
def Obligations.LzcRangeAndCorners : Prop :=
  (∀ H : Vector Word 8, lzc H ≤ 256) ∧ lzc (Vector.replicate 8 0#32) = 256 ∧
  (∀ H : Vector Word 8, H[0].extractLsb' 16 16 = 0x000f#16 → lzc H = 12) ∧
  (∀ H : Vector Word 8, H[0].extractLsb' 24 8 = 0xff#8 → lzc H = 0) ∧
  (∀ H : Vector Word 8, H[0] = 0x7fffffff#32 → lzc H = 1) ∧
  (∀ H : Vector Word 8, H[0] = 0x00000001#32 → lzc H = 31) ∧
  lzc #v[0#32, 0#32, 0#32, 0#32, 0#32, 0#32, 0#32, 1#32] = 255 ∧
  (∀ H : Vector Word 8, H[0] = 0#32 → H[1] = 0x00008000#32 → lzc H = 48)

/-- R205 to R207: MEETS needs phase FINAL and a count that reaches TARGET; with TARGET 0 every digest meets it, with TARGET 256
only the digest of 32 zero bytes; and a TARGET written in phase FINAL decides MEETS at once. -/
def Obligations.MeetsComparesTheCountWithTarget : Prop :=
  (∀ s : State, s.meets = true ↔ (s.phase = .final ∧ s.target.toNat ≤ lzc s.H)) ∧
  (∀ s : State, s.busy = false → s.phase = .absorb → s.lat.finalize = 0 → s.target = 0#9 →
    ∃ t, exec .finalize s = .next t ∧ t.meets = true) ∧
  (∀ s : State, s.phase = .final → s.target = 256#9 → (s.meets = true ↔ s.H = Vector.replicate 8 0#32)) ∧
  (∀ (s : State) (v : Word), s.phase = .final → v.toNat ≤ 256 →
    ∃ t, memWrite .target v s = .next t ∧ (t.meets = true ↔ v.toNat ≤ lzc s.H))

/-! ## The whole machine -/

/-- The reset state meets the invariant. -/
def Obligations.ResetMeetsTheInvariant : Prop := EngineInv State.reset

/-- Every step from a state of the invariant that answers a next state keeps it, whatever the pins are. -/
def Obligations.EveryStepKeepsTheInvariant : Prop :=
  ∀ s t : State, EngineInv s → step s = .next t → EngineInv t

/-- From a state of the invariant no run ever stops: no edge, whatever the host drives, ends in a fault or a refusal (R230: no
error arises at a completion). -/
def Obligations.SoundStatesNeverStop : Prop := ∀ s : State, EngineInv s → NeverStops s

/-- R38: what holds in every state reached from reset by any clock edges at all, in which `busy = 0`. -/
def Obligations.ReachableIdleStatesMeetR38 : Prop :=
  ∀ (inputs : List Cycle) (n : Nat), ∃ t : State, Sys2Proof.core.run n { State.reset with inputs := inputs } = .next t ∧
    (t.busy = false →
      t.bufFill.val < 64 ∧ t.msgLen.toNat < 2 ^ 64 ∧ t.msgLen.toNat % 8 = 0 ∧ t.target.toNat ≤ 256 ∧
      (t.phase = .absorb → t.msgLen.toNat / 8 % 64 = t.bufFill.val) ∧ (t.phase = .final → t.bufFill.val = 0))

/-- R32 to R34: the internal registers are never observed: two states that differ in them alone read the same at every register,
and stay so after any number of edges. -/
def Obligations.InternalRegistersAreNeverObserved : Prop :=
  ∀ (s : State) (d : Datapath) (n : Nat),
    (∀ r : Reg, memRead r { s with dp := d } = memRead r s) ∧
    (∀ t : State, Sys2Proof.core.run n s = .next t →
      ∃ d', Sys2Proof.core.run n { s with dp := d } = .next { t with dp := d' })

/-- R190, R191: a host that issues INIT, ABSORBs any message in any pieces of 1 to 4 bytes, issues FINALIZE, and waits for each
command, reads the SHA-256 of the message, from any idle state, with any latencies, and with any idle edges and reads between its
writes that last at least each command's latency. -/
def Obligations.HashCommandsGiveTheDigest : Prop :=
  ∀ (s : State) (init final : Waited) (pieces : List Piece) (rest : List Cycle), s.busy = false →
    init.long .init = true → final.long .finalize = true → (∀ p ∈ pieces, p.wellFormed = true) →
    8 * (pieces.flatMap Piece.bytes).length < 2 ^ 64 →
    ∃ t : State, Sys2Proof.core.run (hashCycles init pieces final).length
        { s with inputs := hashCycles init pieces final ++ rest } = .next t ∧
      t.busy = false ∧ t.inputs = rest ∧ t.phase = .final ∧
      t.H = hashOf (pieces.flatMap Piece.bytes) ∧
      (∀ i : Fin 8, memRead (.digest i) t = (hashOf (pieces.flatMap Piece.bytes))[i]) ∧
      t.msgLen.toNat = 8 * (pieces.flatMap Piece.bytes).length ∧ t.err = Errors.none ∧ t.target = s.target

/-- R167: two ways of cutting one message into pieces, from any two idle states, with any latencies and any waits between the
host's writes that last at least each command's latency, give the same `H`. -/
def Obligations.StreamingDoesNotDependOnThePieces : Prop :=
  ∀ (s s' : State) (init final init' final' : Waited) (ps ps' : List Piece), s.busy = false → s'.busy = false →
    init.long .init = true → final.long .finalize = true → init'.long .init = true → final'.long .finalize = true →
    (∀ p ∈ ps, p.wellFormed = true) → (∀ p ∈ ps', p.wellFormed = true) →
    8 * (ps.flatMap Piece.bytes).length < 2 ^ 64 → ps.flatMap Piece.bytes = ps'.flatMap Piece.bytes →
    ∃ t t' : State,
      Sys2Proof.core.run (hashCycles init ps final).length { s with inputs := hashCycles init ps final } = .next t ∧
      Sys2Proof.core.run (hashCycles init' ps' final').length { s' with inputs := hashCycles init' ps' final' } = .next t' ∧
      t.H = t'.H

/-- R182, R184: a message of `L` bytes is padded to `floor((L + 8) / 64) + 1` whole blocks, the least number that holds
L + 1 + 8 bytes; the last eight bytes are the bit-length. For a message of 2^61 bytes or more, which the spec leaves undefined, all
of this is the model's choice and no rule of the spec (log entry 20): there the last eight bytes are 8·L modulo 2^64. -/
def Obligations.PaddingFillsTheLeastNumberOfBlocks : Prop :=
  ∀ M : List Byte,
    (padMessage M).length = 64 * ((M.length + 8) / 64 + 1) ∧
    (∀ n, M.length + 1 + 8 ≤ 64 * n → (M.length + 8) / 64 + 1 ≤ n) ∧
    (padMessage M).take M.length = M ∧ (padMessage M)[M.length]? = some 0x80#8 ∧
    (∀ i, M.length < i → i + 8 < (padMessage M).length → (padMessage M)[i]? = some 0x00#8) ∧
    (∀ i, i < 8 → (padMessage M)[(padMessage M).length - 8 + i]? =
      some ((BitVec.ofNat 64 (8 * M.length)).extractLsb' (56 - 8 * i) 8))

/-- R241: an edge of one engine of a system changes no other, the number of engines and their base addresses stay, and with them
the windows' being apart. Free values drawn by different engines are unrelated: no two engines share a draw, which is the model's
choice (log entry 17). -/
def Obligations.EnginesShareNothing : Prop :=
  (∀ (sys sys' : System) (k : Nat), sys.stepEngine k = .next sys' →
    sys'.count = sys.count ∧ (∀ j : Nat, j ≠ k → sys'.engineAt j = sys.engineAt j) ∧
    (∀ j : Nat, (sys'.engineAt j).map Engine.base = (sys.engineAt j).map Engine.base) ∧
    (∀ e, sys.engineAt k = some e → ∃ s, step e.state = .next s ∧ sys'.engineAt k = some { e with state := s }) ∧
    (sys.wf → sys'.wf)) ∧
  (∀ (sys : System) (j k : Nat) (e f : Engine), j ≠ k → sys.engineAt j = some e → sys.engineAt k = some f →
    e.state.draws ≠ f.state.draws)

/-- R52, R53, R241: in a system whose windows are apart, an access at `ENGINE_BASE + 4·n` of an engine is an edge of that engine
with word offset `n`, and no other engine changes; engines that meet the invariant answer it. That an access at any other address
reaches no engine is the model's choice (log entry 16): R53 leaves it to the interconnect. -/
def Obligations.SystemAccessReachesTheAddressedEngine : Prop :=
  ∀ (sys : System) (c : Cycle), sys.wf →
    (∀ (k : Nat) (e : Engine) (n : BitVec 5), sys.engineAt k = some e → EngineInv e.state →
      ∃ s sys', clockEdge { c with sel := true, addr := n } e.state = .next s ∧
        sys.access (e.base + 4 * n.toNat) c = .next sys' ∧ sys'.engineAt k = some { e with state := s } ∧
        (∀ j : Nat, j ≠ k → sys'.engineAt j = sys.engineAt j) ∧ sys'.wf) ∧
    (∀ a : Nat, (∀ e ∈ sys.engines, ∀ n : BitVec 5, a ≠ e.base + 4 * n.toNat) → sys.access a c = .next sys)
end

