-- ==== Sys2Proof/Laws/Buffer.lean ====
section
/-!
SUPPORT. What each byte of the block buffer is after the operations that write it.
-/

namespace Sys2Proof.Machine

/-- One byte of a padded tail (R181). -/
theorem padTail_get (buf : Vector Byte 64) (f : Fin 64) (i : Nat) (h : i < 64) :
    (padTail buf f)[i] = if i < f.val then buf[i] else if i = f.val then 0x80#8 else 0x00#8 := by
  simp only [padTail, Vector.getElem_ofFn, Fin.ext_iff]
  rfl

/-- One byte after the length field has been written (R181). -/
theorem putLength_get (buf : Vector Byte 64) (msgLen : BitVec 64) (i : Nat) (h : i < 64) :
    (putLength buf msgLen)[i] = if 56 ≤ i then lengthByte msgLen (i - 56) else buf[i] := by
  simp [putLength]

/-- One byte of a block cut out of a byte string (R190). -/
theorem blockOf_get (bytes : List Byte) (k i : Nat) (h : i < 64) :
    (blockOf bytes k)[i] = bytes.getD (64 * k + i) 0x00#8 := by
  simp [blockOf]

/-- The four bytes a BLOCKk write stores (R67). -/
theorem putBlockWord_get (buf : Vector Byte 64) (k : Fin 16) (v : Word) (i : Nat) (h : i < 64) :
    (putBlockWord buf k v)[i] = if i / 4 = k.val then byteOf v (i % 4) else buf[i] := by
  have hk := k.isLt
  simp only [putBlockWord, Vector.getElem_set]
  split
  · rename_i h3
    subst h3
    rw [if_pos (by omega)]
    congr 1
    omega
  · split
    · rename_i h2
      subst h2
      rw [if_pos (by omega)]
      congr 1
      omega
    · split
      · rename_i h1
        subst h1
        rw [if_pos (by omega)]
        congr 1
        omega
      · split
        · rename_i h0
          subst h0
          rw [if_pos (by omega)]
          congr 1
          omega
        · rw [if_neg (by omega)]

/-- A word is the concatenation of its four bytes, most significant first (R68). -/
theorem be32_byteOf (v : Word) : be32 (byteOf v 0) (byteOf v 1) (byteOf v 2) (byteOf v 3) = v := by
  apply BitVec.eq_of_getLsbD_eq
  intro i hi
  simp only [be32, byteOf, BitVec.getLsbD_append, BitVec.getLsbD_extractLsb']
  by_cases h1 : i < 8
  · simp [h1]
  · by_cases h2 : i < 16
    · simp [h1, show i - 8 < 8 by omega, show 8 + (i - 8) = i by omega]
    · by_cases h3 : i < 24
      · simp [h1, show ¬ i - 8 < 8 by omega, show i - 8 - 8 < 8 by omega, show 16 + (i - 8 - 8) = i by omega]
      · simp [h1, show ¬ i - 8 < 8 by omega, show ¬ i - 8 - 8 < 8 by omega, show i - 8 - 8 - 8 < 8 by omega,
          show 24 + (i - 8 - 8 - 8) = i by omega]

/-- BLOCKk after a write of BLOCKj (R67). -/
theorem blockWord_putBlockWord (buf : Vector Byte 64) (j k : Fin 16) (v : Word) :
    blockWord (putBlockWord buf j v) k = if k = j then v else blockWord buf k := by
  have hk := k.isLt
  by_cases h : k = j
  · subst h
    have e0 : 4 * k.val / 4 = k.val := by omega
    have e1 : (4 * k.val + 1) / 4 = k.val := by omega
    have e2 : (4 * k.val + 2) / 4 = k.val := by omega
    have e3 : (4 * k.val + 3) / 4 = k.val := by omega
    have m0 : 4 * k.val % 4 = 0 := by omega
    have m1 : (4 * k.val + 1) % 4 = 1 := by omega
    have m2 : (4 * k.val + 2) % 4 = 2 := by omega
    have m3 : (4 * k.val + 3) % 4 = 3 := by omega
    simp only [blockWord, putBlockWord_get, e0, e1, e2, e3, m0, m1, m2, m3, if_true, be32_byteOf]
  · have hne : k.val ≠ j.val := fun e => h (Fin.ext e)
    have e0 : 4 * k.val / 4 ≠ j.val := by omega
    have e1 : (4 * k.val + 1) / 4 ≠ j.val := by omega
    have e2 : (4 * k.val + 2) / 4 ≠ j.val := by omega
    have e3 : (4 * k.val + 3) / 4 ≠ j.val := by omega
    simp only [blockWord, putBlockWord_get, e0, e1, e2, e3, h, if_false]

/-! ## Blocks of a byte string. `compress` is never unfolded here: `congrArg₂ compress` keeps it closed. -/

theorem compressBlocks_succ (H : Vector Word 8) (bytes : List Byte) (n : Nat) :
    compressBlocks H bytes (n + 1) = compress (compressBlocks H bytes n) (blockOf bytes n) := by
  simp [compressBlocks, List.range_succ]

/-- The first `n` blocks read the first `64·n` bytes only. -/
theorem compressBlocks_congr {H : Vector Word 8} {bytes bytes' : List Byte} (n : Nat)
    (h : ∀ i, i < 64 * n → bytes.getD i 0x00#8 = bytes'.getD i 0x00#8) :
    compressBlocks H bytes n = compressBlocks H bytes' n := by
  induction n with
  | zero => simp [compressBlocks]
  | succ n ih =>
    rw [compressBlocks_succ, compressBlocks_succ]
    refine congrArg₂ compress (ih fun i hi => h i (by omega)) ?_
    apply Vector.ext
    intro i hi
    rw [blockOf_get _ _ _ hi, blockOf_get _ _ _ hi]
    exact h _ (by omega)

end Sys2Proof.Machine
end

