-- ==== Sys2Proof/Laws/State.lean ====
section
/-!
SUPPORT. One lemma per field per update of State, true by rfl, so that no later proof unfolds a record update.
-/

namespace Sys2Proof.Machine

section
variable (s : State) (b : ErrBit)

@[simp] theorem raise_H : (s.raise b).H = s.H := rfl
@[simp] theorem raise_buf : (s.raise b).buf = s.buf := rfl
@[simp] theorem raise_bufFill : (s.raise b).bufFill = s.bufFill := rfl
@[simp] theorem raise_msgLen : (s.raise b).msgLen = s.msgLen := rfl
@[simp] theorem raise_phase : (s.raise b).phase = s.phase := rfl
@[simp] theorem raise_dataIn : (s.raise b).dataIn = s.dataIn := rfl
@[simp] theorem raise_target : (s.raise b).target = s.target := rfl
@[simp] theorem raise_err : (s.raise b).err = s.err.set b := rfl
@[simp] theorem raise_pending : (s.raise b).pending = s.pending := rfl
@[simp] theorem raise_dp : (s.raise b).dp = s.dp := rfl
@[simp] theorem raise_rdata : (s.raise b).rdata = s.rdata := rfl
@[simp] theorem raise_inputs : (s.raise b).inputs = s.inputs := rfl
@[simp] theorem raise_lat : (s.raise b).lat = s.lat := rfl
@[simp] theorem raise_draws : (s.raise b).draws = s.draws := rfl

end

section
variable (s : State)

@[simp] theorem compressBlock_H : (s.compressBlock).H = compress s.H s.buf := rfl
@[simp] theorem compressBlock_buf : (s.compressBlock).buf = s.buf := rfl
@[simp] theorem compressBlock_bufFill : (s.compressBlock).bufFill = s.bufFill := rfl
@[simp] theorem compressBlock_msgLen : (s.compressBlock).msgLen = s.msgLen := rfl
@[simp] theorem compressBlock_phase : (s.compressBlock).phase = s.phase := rfl
@[simp] theorem compressBlock_dataIn : (s.compressBlock).dataIn = s.dataIn := rfl
@[simp] theorem compressBlock_target : (s.compressBlock).target = s.target := rfl
@[simp] theorem compressBlock_err : (s.compressBlock).err = s.err := rfl
@[simp] theorem compressBlock_pending : (s.compressBlock).pending = s.pending := rfl
@[simp] theorem compressBlock_dp : (s.compressBlock).dp = Config.anyDatapath s.draws := rfl
@[simp] theorem compressBlock_rdata : (s.compressBlock).rdata = s.rdata := rfl
@[simp] theorem compressBlock_inputs : (s.compressBlock).inputs = s.inputs := rfl
@[simp] theorem compressBlock_lat : (s.compressBlock).lat = s.lat := rfl
@[simp] theorem compressBlock_draws : (s.compressBlock).draws = s.draws := rfl

end

section
variable (s : State) (c : Cycle)

@[simp] theorem beginEdge_H : (s.beginEdge c).H = s.H := rfl
@[simp] theorem beginEdge_buf : (s.beginEdge c).buf = s.buf := rfl
@[simp] theorem beginEdge_bufFill : (s.beginEdge c).bufFill = s.bufFill := rfl
@[simp] theorem beginEdge_msgLen : (s.beginEdge c).msgLen = s.msgLen := rfl
@[simp] theorem beginEdge_phase : (s.beginEdge c).phase = s.phase := rfl
@[simp] theorem beginEdge_dataIn : (s.beginEdge c).dataIn = s.dataIn := rfl
@[simp] theorem beginEdge_target : (s.beginEdge c).target = s.target := rfl
@[simp] theorem beginEdge_err : (s.beginEdge c).err = s.err := rfl
@[simp] theorem beginEdge_pending : (s.beginEdge c).pending = s.pending := rfl
@[simp] theorem beginEdge_dp : (s.beginEdge c).dp = s.dp := rfl
@[simp] theorem beginEdge_rdata : (s.beginEdge c).rdata = Config.anyRdata s.draws := rfl
@[simp] theorem beginEdge_inputs : (s.beginEdge c).inputs = s.inputs := rfl
@[simp] theorem beginEdge_lat : (s.beginEdge c).lat = c.lat := rfl
@[simp] theorem beginEdge_draws : (s.beginEdge c).draws = s.draws.next := rfl

end

section
variable (s : State) (c : Cycle)

@[simp] theorem resetEdge_H : (s.resetEdge c).H = iv := rfl
@[simp] theorem resetEdge_buf : (s.resetEdge c).buf = Vector.replicate 64 0#8 := rfl
@[simp] theorem resetEdge_bufFill : (s.resetEdge c).bufFill = 0 := rfl
@[simp] theorem resetEdge_msgLen : (s.resetEdge c).msgLen = 0#64 := rfl
@[simp] theorem resetEdge_phase : (s.resetEdge c).phase = .absorb := rfl
@[simp] theorem resetEdge_dataIn : (s.resetEdge c).dataIn = 0#32 := rfl
@[simp] theorem resetEdge_target : (s.resetEdge c).target = 0#9 := rfl
@[simp] theorem resetEdge_err : (s.resetEdge c).err = Errors.none := rfl
@[simp] theorem resetEdge_pending : (s.resetEdge c).pending = none := rfl
@[simp] theorem resetEdge_dp : (s.resetEdge c).dp = Datapath.atReset := rfl
@[simp] theorem resetEdge_rdata : (s.resetEdge c).rdata = Config.anyRdata s.draws := rfl
@[simp] theorem resetEdge_inputs : (s.resetEdge c).inputs = s.inputs := rfl
@[simp] theorem resetEdge_lat : (s.resetEdge c).lat = c.lat := rfl
@[simp] theorem resetEdge_draws : (s.resetEdge c).draws = s.draws.next := rfl

end

section
variable (s : State)

@[simp] theorem effectInit_H : (effectInit s).H = iv := rfl
@[simp] theorem effectInit_buf : (effectInit s).buf = s.buf := rfl
@[simp] theorem effectInit_bufFill : (effectInit s).bufFill = 0 := rfl
@[simp] theorem effectInit_msgLen : (effectInit s).msgLen = 0#64 := rfl
@[simp] theorem effectInit_phase : (effectInit s).phase = .absorb := rfl
@[simp] theorem effectInit_dataIn : (effectInit s).dataIn = s.dataIn := rfl
@[simp] theorem effectInit_target : (effectInit s).target = s.target := rfl
@[simp] theorem effectInit_err : (effectInit s).err = Errors.none := rfl
@[simp] theorem effectInit_pending : (effectInit s).pending = s.pending := rfl
@[simp] theorem effectInit_dp : (effectInit s).dp = s.dp := rfl
@[simp] theorem effectInit_rdata : (effectInit s).rdata = s.rdata := rfl
@[simp] theorem effectInit_inputs : (effectInit s).inputs = s.inputs := rfl
@[simp] theorem effectInit_lat : (effectInit s).lat = s.lat := rfl
@[simp] theorem effectInit_draws : (effectInit s).draws = s.draws := rfl

end

section
variable (s : State)

@[simp] theorem effectCompress_H : (effectCompress s).H = compress s.H s.buf := rfl
@[simp] theorem effectCompress_buf : (effectCompress s).buf = s.buf := rfl
@[simp] theorem effectCompress_bufFill : (effectCompress s).bufFill = s.bufFill := rfl
@[simp] theorem effectCompress_msgLen : (effectCompress s).msgLen = s.msgLen + 512#64 := rfl
@[simp] theorem effectCompress_phase : (effectCompress s).phase = s.phase := rfl
@[simp] theorem effectCompress_dataIn : (effectCompress s).dataIn = s.dataIn := rfl
@[simp] theorem effectCompress_target : (effectCompress s).target = s.target := rfl
@[simp] theorem effectCompress_err : (effectCompress s).err = s.err := rfl
@[simp] theorem effectCompress_pending : (effectCompress s).pending = s.pending := rfl
@[simp] theorem effectCompress_dp : (effectCompress s).dp = Config.anyDatapath s.draws := rfl
@[simp] theorem effectCompress_rdata : (effectCompress s).rdata = s.rdata := rfl
@[simp] theorem effectCompress_inputs : (effectCompress s).inputs = s.inputs := rfl
@[simp] theorem effectCompress_lat : (effectCompress s).lat = s.lat := rfl
@[simp] theorem effectCompress_draws : (effectCompress s).draws = s.draws := rfl

end

/-! What `busy` is after each update. -/

@[simp] theorem raise_busy (s : State) (b : ErrBit) : (s.raise b).busy = s.busy := rfl
@[simp] theorem compressBlock_busy (s : State) : s.compressBlock.busy = s.busy := rfl
@[simp] theorem beginEdge_busy (s : State) (c : Cycle) : (s.beginEdge c).busy = s.busy := rfl
@[simp] theorem resetEdge_busy (s : State) (c : Cycle) : (s.resetEdge c).busy = false := rfl

theorem busy_eq_false_iff (s : State) : s.busy = false ↔ s.pending = none := by
  simp [State.busy]

theorem busy_of_pending {s : State} {p : Pending} (h : s.pending = some p) : s.busy = true := by
  simp [State.busy, h]

/-! The draws. -/

@[simp] theorem draw_next_stream (d : Draw) : d.next.stream = d.stream := rfl
@[simp] theorem draw_next_number (d : Draw) : d.next.number = d.number + 1 := rfl

/-! The error bits. -/

@[simp] theorem errors_none_get (b : ErrBit) : Errors.none.get b = false := by cases b <;> rfl

@[simp] theorem errors_get_set (e : Errors) (b b' : ErrBit) :
    (e.set b).get b' = (decide (b = b') || e.get b') := by
  cases b <;> cases b' <;> simp [Errors.set, Errors.get]

theorem errors_ext {e e' : Errors} (h : ∀ b, e.get b = e'.get b) : e = e' := by
  have h1 := h .illegal
  have h2 := h .seq
  have h3 := h .busy
  have h4 := h .len
  have h5 := h .target
  cases e
  cases e'
  simp_all [Errors.get]

end Sys2Proof.Machine
end

