-- ==== Sys2Proof/Laws/Ops.lean ====
section
/-!
SUPPORT. What each shared operation of Machine/Ops.lean and each command can do, said once: the later proofs cite these and
unfold nothing.
-/

namespace Sys2Proof.Machine

/-! ## One byte of an ABSORB -/

theorem absorbByte_below {s : State} (b : Byte) (h : s.bufFill.val + 1 < 64) :
    s.absorbByte b = { s with buf := s.buf.set s.bufFill.val b, bufFill := ⟨s.bufFill.val + 1, h⟩ } := by
  simp [State.absorbByte, h]

theorem absorbByte_full {s : State} (b : Byte) (h : ¬ s.bufFill.val + 1 < 64) :
    s.absorbByte b =
      { s with
        H := compress s.H (s.buf.set s.bufFill.val b), dp := Config.anyDatapath s.draws
        buf := s.buf.set s.bufFill.val b, bufFill := 0 } := by
  simp [State.absorbByte, h, State.compressBlock]

/-- `t` differs from `s` in `H`, `buf`, `buf_fill` and the internal registers at most: all that storing and compressing message
bytes may write. -/
structure StoresOnly (s t : State) : Prop where
  msgLen : t.msgLen = s.msgLen
  phase : t.phase = s.phase
  dataIn : t.dataIn = s.dataIn
  target : t.target = s.target
  err : t.err = s.err
  pending : t.pending = s.pending
  rdata : t.rdata = s.rdata
  inputs : t.inputs = s.inputs
  lat : t.lat = s.lat
  draws : t.draws = s.draws

theorem StoresOnly.refl (s : State) : StoresOnly s s := ⟨rfl, rfl, rfl, rfl, rfl, rfl, rfl, rfl, rfl, rfl⟩

theorem StoresOnly.trans {s t u : State} (h : StoresOnly s t) (h' : StoresOnly t u) : StoresOnly s u where
  msgLen := h'.msgLen.trans h.msgLen
  phase := h'.phase.trans h.phase
  dataIn := h'.dataIn.trans h.dataIn
  target := h'.target.trans h.target
  err := h'.err.trans h.err
  pending := h'.pending.trans h.pending
  rdata := h'.rdata.trans h.rdata
  inputs := h'.inputs.trans h.inputs
  lat := h'.lat.trans h.lat
  draws := h'.draws.trans h.draws

theorem absorbByte_storesOnly (s : State) (b : Byte) : StoresOnly s (s.absorbByte b) := by
  by_cases h : s.bufFill.val + 1 < 64
  · rw [absorbByte_below b h]
    exact ⟨rfl, rfl, rfl, rfl, rfl, rfl, rfl, rfl, rfl, rfl⟩
  · rw [absorbByte_full b h]
    exact ⟨rfl, rfl, rfl, rfl, rfl, rfl, rfl, rfl, rfl, rfl⟩

theorem absorbBytes_storesOnly (bs : List Byte) (s : State) : StoresOnly s (bs.foldl State.absorbByte s) := by
  induction bs generalizing s with
  | nil => exact .refl s
  | cons b bs ih => exact (absorbByte_storesOnly s b).trans (ih _)

/-- `buf_fill` counts the bytes modulo 64 (R165). -/
theorem absorbBytes_bufFill (bs : List Byte) (s : State) :
    (bs.foldl State.absorbByte s).bufFill.val = (s.bufFill.val + bs.length) % 64 := by
  induction bs generalizing s with
  | nil => simp [Nat.mod_eq_of_lt s.bufFill.isLt]
  | cons b bs ih =>
    rw [List.foldl_cons, ih]
    by_cases h : s.bufFill.val + 1 < 64
    · rw [absorbByte_below b h, List.length_cons]
      simp only
      congr 1
      omega
    · rw [absorbByte_full b h, List.length_cons]
      have := s.bufFill.isLt
      simp only [Fin.val_zero]
      omega

@[simp] theorem absorbedBytes_length (n : BitVec 3) (data : Word) : (absorbedBytes n data).length = n.toNat := by
  simp [absorbedBytes]

/-! ## The padding of FINALIZE -/

theorem pad_one {s : State} (h : s.bufFill.val ≤ 55) :
    s.pad =
      { s with
        H := compress s.H (putLength (padTail s.buf s.bufFill) s.msgLen)
        buf := putLength (padTail s.buf s.bufFill) s.msgLen, dp := Config.anyDatapath s.draws } := by
  simp [State.pad, show ¬ 55 < s.bufFill.val by omega, State.compressBlock]

theorem pad_two {s : State} (h : 56 ≤ s.bufFill.val) :
    s.pad =
      { s with
        H := compress (compress s.H (padTail s.buf s.bufFill))
          (putLength (Vector.replicate 64 0x00#8) s.msgLen)
        buf := putLength (Vector.replicate 64 0x00#8) s.msgLen, dp := Config.anyDatapath s.draws } := by
  simp [State.pad, show 55 < s.bufFill.val by omega, State.compressBlock]

theorem pad_storesOnly (s : State) : StoresOnly s s.pad := by
  by_cases h : s.bufFill.val ≤ 55
  · rw [pad_one h]
    exact ⟨rfl, rfl, rfl, rfl, rfl, rfl, rfl, rfl, rfl, rfl⟩
  · rw [pad_two (by omega)]
    exact ⟨rfl, rfl, rfl, rfl, rfl, rfl, rfl, rfl, rfl, rfl⟩

/-! ## The effect of a command -/

theorem effectFinalize_one {s : State} (h : s.bufFill.val ≤ 55) :
    effectFinalize s =
      { s with
        H := compress s.H (putLength (padTail s.buf s.bufFill) s.msgLen)
        buf := putLength (padTail s.buf s.bufFill) s.msgLen
        bufFill := 0, phase := .final, dp := Config.anyDatapath s.draws } := by
  simp only [effectFinalize, pad_one h]

theorem effectFinalize_two {s : State} (h : 56 ≤ s.bufFill.val) :
    effectFinalize s =
      { s with
        H := compress (compress s.H (padTail s.buf s.bufFill)) (putLength (Vector.replicate 64 0x00#8) s.msgLen)
        buf := putLength (Vector.replicate 64 0x00#8) s.msgLen
        bufFill := 0, phase := .final, dp := Config.anyDatapath s.draws } := by
  simp only [effectFinalize, pad_two h]

/-! No effect changes DATA_IN, TARGET, `pending`, the `rdata` port or the model's own fields, and only that of INIT changes the
error bits. -/

section
variable (i : Instr) (data : Word) (s : State)

@[simp] theorem effectOf_dataIn : (effectOf i data s).dataIn = s.dataIn := by
  cases i with
  | init => rfl
  | absorb n => exact (absorbBytes_storesOnly _ s).dataIn
  | compress => rfl
  | finalize => exact (pad_storesOnly s).dataIn

@[simp] theorem effectOf_target : (effectOf i data s).target = s.target := by
  cases i with
  | init => rfl
  | absorb n => exact (absorbBytes_storesOnly _ s).target
  | compress => rfl
  | finalize => exact (pad_storesOnly s).target

@[simp] theorem effectOf_pending : (effectOf i data s).pending = s.pending := by
  cases i with
  | init => rfl
  | absorb n => exact (absorbBytes_storesOnly _ s).pending
  | compress => rfl
  | finalize => exact (pad_storesOnly s).pending

@[simp] theorem effectOf_rdata : (effectOf i data s).rdata = s.rdata := by
  cases i with
  | init => rfl
  | absorb n => exact (absorbBytes_storesOnly _ s).rdata
  | compress => rfl
  | finalize => exact (pad_storesOnly s).rdata

@[simp] theorem effectOf_inputs : (effectOf i data s).inputs = s.inputs := by
  cases i with
  | init => rfl
  | absorb n => exact (absorbBytes_storesOnly _ s).inputs
  | compress => rfl
  | finalize => exact (pad_storesOnly s).inputs

@[simp] theorem effectOf_lat : (effectOf i data s).lat = s.lat := by
  cases i with
  | init => rfl
  | absorb n => exact (absorbBytes_storesOnly _ s).lat
  | compress => rfl
  | finalize => exact (pad_storesOnly s).lat

@[simp] theorem effectOf_draws : (effectOf i data s).draws = s.draws := by
  cases i with
  | init => rfl
  | absorb n => exact (absorbBytes_storesOnly _ s).draws
  | compress => rfl
  | finalize => exact (pad_storesOnly s).draws

theorem effectOf_err : (effectOf i data s).err = if i = .init then Errors.none else s.err := by
  cases i with
  | init => rfl
  | absorb n => exact (absorbBytes_storesOnly _ s).err
  | compress => rfl
  | finalize => exact (pad_storesOnly s).err

end

/-- The registers of R261 that an effect reads and writes. -/
def SameHash (s t : State) : Prop :=
  t.H = s.H ∧ t.buf = s.buf ∧ t.bufFill = s.bufFill ∧ t.msgLen = s.msgLen ∧ t.phase = s.phase

theorem SameHash.refl (s : State) : SameHash s s := ⟨rfl, rfl, rfl, rfl, rfl⟩

theorem SameHash.trans {s t u : State} (h : SameHash s t) (h' : SameHash t u) : SameHash s u := by
  obtain ⟨a, b, c, d, e⟩ := h
  obtain ⟨a', b', c', d', e'⟩ := h'
  exact ⟨a'.trans a, b'.trans b, c'.trans c, d'.trans d, e'.trans e⟩

theorem absorbByte_sameHash {s t : State} (h : SameHash s t) (b : Byte) :
    SameHash (s.absorbByte b) (t.absorbByte b) := by
  obtain ⟨hH, hbuf, hfill, hlen, hphase⟩ := h
  by_cases hf : s.bufFill.val + 1 < 64
  · rw [absorbByte_below b hf, absorbByte_below b (by rw [hfill]; exact hf)]
    refine ⟨hH, ?_, ?_, hlen, hphase⟩ <;> simp [hbuf, hfill]
  · rw [absorbByte_full b hf, absorbByte_full b (by rw [hfill]; exact hf)]
    refine ⟨?_, ?_, rfl, hlen, hphase⟩ <;> simp [hH, hbuf, hfill]

theorem absorbBytes_sameHash (bs : List Byte) {s t : State} (h : SameHash s t) :
    SameHash (bs.foldl State.absorbByte s) (bs.foldl State.absorbByte t) := by
  induction bs generalizing s t with
  | nil => exact h
  | cons b bs ih => exact ih (absorbByte_sameHash h b)

/-- An effect reads `H`, `buf`, `buf_fill`, `msg_len` and `phase`, and no other register (R261). -/
theorem effectOf_sameHash (i : Instr) (data : Word) {s t : State} (h : SameHash s t) :
    SameHash (effectOf i data s) (effectOf i data t) := by
  cases i with
  | init => exact ⟨rfl, h.2.1, rfl, rfl, rfl⟩
  | absorb n =>
    have hb := absorbBytes_sameHash (absorbedBytes n data) h
    exact ⟨hb.1, hb.2.1, hb.2.2.1, by simp [effectOf, effectAbsorb, h.2.2.2.1], hb.2.2.2.2⟩
  | compress =>
    obtain ⟨hH, hbuf, hfill, hlen, hphase⟩ := h
    exact ⟨by simp [effectOf, hH, hbuf], hbuf, hfill, by simp [effectOf, hlen], hphase⟩
  | finalize =>
    obtain ⟨hH, hbuf, hfill, hlen, hphase⟩ := h
    by_cases hf : s.bufFill.val ≤ 55
    · simp only [effectOf, effectFinalize, pad_one hf, pad_one (s := t) (by rw [hfill]; exact hf)]
      exact ⟨by simp [hH, hbuf, hfill, hlen], by simp [hbuf, hfill, hlen], rfl, hlen, rfl⟩
    · simp only [effectOf, effectFinalize, pad_two (s := s) (by omega), pad_two (s := t) (by rw [hfill]; omega)]
      exact ⟨by simp [hH, hbuf, hfill, hlen], by simp [hlen], rfl, hlen, rfl⟩

theorem absorbBytes_dp_congr (bs : List Byte) {s t : State} (h : SameHash s t) (hd : t.draws = s.draws)
    (hdp : t.dp = s.dp) : (bs.foldl State.absorbByte t).dp = (bs.foldl State.absorbByte s).dp := by
  induction bs generalizing s t with
  | nil => exact hdp
  | cons b bs ih =>
    refine ih (absorbByte_sameHash h b) ?_ ?_
    · rw [(absorbByte_storesOnly s b).draws, (absorbByte_storesOnly t b).draws, hd]
    · by_cases hf : s.bufFill.val + 1 < 64
      · rw [absorbByte_below b hf, absorbByte_below b (by rw [h.2.2.1]; exact hf), hdp]
      · rw [absorbByte_full b hf, absorbByte_full b (by rw [h.2.2.1]; exact hf), hd]

/-- What an effect leaves in the internal registers depends on the draw, the registers of R261 and what they held. -/
theorem effectOf_dp_congr (i : Instr) (data : Word) {s t : State} (h : SameHash s t) (hd : t.draws = s.draws)
    (hdp : t.dp = s.dp) : (effectOf i data t).dp = (effectOf i data s).dp := by
  cases i with
  | init => exact hdp
  | absorb n => exact absorbBytes_dp_congr _ h hd hdp
  | compress => simp [effectOf, hd]
  | finalize =>
    by_cases hf : s.bufFill.val ≤ 55
    · simp only [effectOf, effectFinalize, pad_one hf, pad_one (s := t) (by rw [h.2.2.1]; exact hf), hd]
    · simp only [effectOf, effectFinalize, pad_two (s := s) (by omega), pad_two (s := t) (by rw [h.2.2.1]; omega), hd]

/-! ## Issuing a command -/

/-- Every instruction's meaning is its checked issue: the one fact about `exec` that the later proofs use. -/
theorem exec_eq (i : Instr) (s : State) :
    exec i s = checkedIssue (checkOf i s) (encode i) (s.lat.of i) (effectOf i s.dataIn) s := by
  cases i <;> rfl

theorem exec_refused {i : Instr} {s : State} {b : ErrBit} (h : checkOf i s = some b) :
    exec i s = .next (s.raise b) := by
  simp [exec_eq, checkedIssue, h]

theorem exec_issued {i : Instr} {s : State} (h : checkOf i s = none) :
    exec i s = .next (s.issue (encode i) (s.lat.of i) (effectOf i s.dataIn)) := by
  simp [exec_eq, checkedIssue, h]

theorem exec_completes {i : Instr} {s : State} (h : checkOf i s = none) (hl : s.lat.of i = 0) :
    exec i s = .next (effectOf i s.dataIn s) := by
  simp [exec_issued h, State.issue, hl]

theorem exec_pends {i : Instr} {s : State} (h : checkOf i s = none) (hl : s.lat.of i ≠ 0) :
    exec i s = .next { s with pending := some { cmd := encode i, data := s.dataIn, left := s.lat.of i } } := by
  simp [exec_issued h, State.issue, hl]

/-- A busy engine refuses every command (R222). -/
theorem checkOf_busy {s : State} (h : s.busy = true) (i : Instr) : checkOf i s = some .busy := by
  cases i <;> simp [checkOf, checkInit, checkAbsorb, checkCompress, checkFinalize, h]

/-- Every command answers a next state: what it can be. -/
theorem exec_cases (i : Instr) (s : State) :
    (∃ b, checkOf i s = some b ∧ exec i s = .next (s.raise b)) ∨
    (checkOf i s = none ∧ s.lat.of i = 0 ∧ exec i s = .next (effectOf i s.dataIn s)) ∨
    (checkOf i s = none ∧ s.lat.of i ≠ 0 ∧
      exec i s = .next { s with pending := some { cmd := encode i, data := s.dataIn, left := s.lat.of i } }) := by
  cases h : checkOf i s with
  | some b => exact .inl ⟨b, rfl, exec_refused h⟩
  | none =>
    by_cases hl : s.lat.of i = 0
    · exact .inr (.inl ⟨rfl, hl, exec_completes h hl⟩)
    · exact .inr (.inr ⟨rfl, hl, exec_pends h hl⟩)

/-! ## When the checks pass -/

theorem checkInit_passes {s : State} (hb : s.busy = false) : checkOf .init s = none := by
  simp [checkOf, checkInit, hb]

theorem checkAbsorb_passes {s : State} {n : BitVec 3} (hb : s.busy = false) (h1 : 1 ≤ n.toNat) (h4 : n.toNat ≤ 4)
    (hp : s.phase = .absorb) (hl : s.msgLen.toNat + 8 * n.toNat < 2 ^ 64) : checkOf (.absorb n) s = none := by
  simp only [checkOf, checkAbsorb, hb, Instr.wellFormed, h1, h4, hp, State.tooLong]
  simp
  omega

theorem checkCompress_passes {s : State} (hb : s.busy = false) (hp : s.phase = .absorb) (hf : s.bufFill = 0)
    (hl : s.msgLen.toNat + 512 < 2 ^ 64) : checkOf .compress s = none := by
  simp only [checkOf, checkCompress, hb, hp, hf, State.tooLong]
  simp
  omega

theorem checkFinalize_passes {s : State} (hb : s.busy = false) (hp : s.phase = .absorb) :
    checkOf .finalize s = none := by
  simp [checkOf, checkFinalize, hb, hp]

/-- A count that passes the length check is added without wrapping (R224). -/
theorem msgLen_add {m : BitVec 64} {k : Nat} (h : m.toNat + k < 2 ^ 64) :
    (m + BitVec.ofNat 64 k).toNat = m.toNat + k := by
  rw [BitVec.toNat_add, BitVec.toNat_ofNat]
  omega

end Sys2Proof.Machine
end

