-- ==== Sys2Proof/Laws/Bus.lean ====
section
/-!
SUPPORT. What a write, an access and a clock edge can do, each said once as an inversion: an access always answers a next
state, and the state it answers is one of the cases listed.
-/

namespace Sys2Proof.Machine

/-! ## Writes -/

/-- What `MemWrite` of `v` to `r` can leave (R56, R60, R220). -/
inductive WriteResult (r : Reg) (v : Word) (s : State) : State → Prop
  | refused (b : ErrBit) : WriteResult r v s (s.raise b)
  | dataIn : r = .dataIn → WriteResult r v s { s with dataIn := v }
  | target (w : BitVec 9) : r = .target → w.toNat = v.toNat → w.toNat ≤ 256 → WriteResult r v s { s with target := w }
  | block (k : Fin 16) : r = .block k → s.busy = false → WriteResult r v s { s with buf := putBlockWord s.buf k v }
  | ignored : WriteResult r v s s
  | completed (i : Instr) : r = .cmd → s.busy = false → decode v = .ok i → checkOf i s = none → s.lat.of i = 0 →
      WriteResult r v s (effectOf i s.dataIn s)
  | pended (i : Instr) : r = .cmd → s.busy = false → decode v = .ok i → checkOf i s = none → s.lat.of i ≠ 0 →
      WriteResult r v s { s with pending := some { cmd := encode i, data := s.dataIn, left := s.lat.of i } }

theorem target_toNat {v : Word} (h : v.toNat ≤ 256) : (v.setWidth 9).toNat = v.toNat := by
  simp only [BitVec.toNat_setWidth]
  omega

theorem memWrite_cmd_busy {s : State} (v : Word) (h : s.busy = true) : memWrite .cmd v s = .next (s.raise .busy) := by
  simp [memWrite, writeCheck, h]

theorem memWrite_block_busy {s : State} (k : Fin 16) (v : Word) (h : s.busy = true) :
    memWrite (.block k) v s = .next (s.raise .busy) := by
  simp [memWrite, writeCheck, h]

theorem memWrite_cmd_idle {s : State} (v : Word) (h : s.busy = false) : memWrite .cmd v s = issueWord v s := by
  simp [memWrite, writeCheck, performWrite, h]

theorem memWrite_block_idle {s : State} (k : Fin 16) (v : Word) (h : s.busy = false) :
    memWrite (.block k) v s = .next { s with buf := putBlockWord s.buf k v } := by
  simp [memWrite, writeCheck, performWrite, h]

theorem memWrite_dataIn (s : State) (v : Word) : memWrite .dataIn v s = .next { s with dataIn := v } := rfl

theorem memWrite_target_high {s : State} {v : Word} (h : 256 < v.toNat) :
    memWrite .target v s = .next (s.raise .target) := by
  simp [memWrite, writeCheck, h]

theorem memWrite_target_low {s : State} {v : Word} (h : v.toNat ≤ 256) :
    memWrite .target v s = .next { s with target := v.setWidth 9 } := by
  simp [memWrite, writeCheck, performWrite, show ¬ 256 < v.toNat by omega]

theorem issueWord_illegal {v : Word} {e : DecodeError} (h : decode v = .error e) (s : State) :
    issueWord v s = .next (s.raise .illegal) := by
  simp [issueWord, h]

theorem issueWord_legal {v : Word} {i : Instr} (h : decode v = .ok i) (s : State) : issueWord v s = exec i s := by
  simp [issueWord, h]

/-- Every write answers a next state, and it is one of `WriteResult`. -/
theorem memWrite_next (r : Reg) (v : Word) (s : State) : ∃ t, memWrite r v s = .next t ∧ WriteResult r v s t := by
  cases r with
  | cmd =>
    cases hb : s.busy with
    | true => exact ⟨_, memWrite_cmd_busy v hb, .refused _⟩
    | false =>
      rw [memWrite_cmd_idle v hb]
      cases hd : decode v with
      | error e => exact ⟨_, issueWord_illegal hd s, .refused _⟩
      | ok i =>
        rw [issueWord_legal hd]
        obtain ⟨b, -, he⟩ | ⟨hc, hl, he⟩ | ⟨hc, hl, he⟩ := exec_cases i s
        · exact ⟨_, he, .refused _⟩
        · exact ⟨_, he, .completed i rfl hb hd hc hl⟩
        · exact ⟨_, he, .pended i rfl hb hd hc hl⟩
  | dataIn => exact ⟨_, rfl, .dataIn rfl⟩
  | target =>
    by_cases h : v.toNat ≤ 256
    · exact ⟨_, memWrite_target_low h, .target _ rfl (target_toNat h) (by rw [target_toNat h]; exact h)⟩
    · exact ⟨_, memWrite_target_high (by omega), .refused _⟩
  | block k =>
    cases hb : s.busy with
    | true => exact ⟨_, memWrite_block_busy k v hb, .refused _⟩
    | false => exact ⟨_, memWrite_block_idle k v hb, .block k rfl hb⟩
  | status => exact ⟨_, rfl, .ignored⟩
  | lzc => exact ⟨_, rfl, .ignored⟩
  | msglenLo => exact ⟨_, rfl, .ignored⟩
  | msglenHi => exact ⟨_, rfl, .ignored⟩
  | reserved => exact ⟨_, rfl, .ignored⟩
  | digest i => exact ⟨_, rfl, .ignored⟩

/-- A busy engine's write reaches the error bits, DATA_IN and TARGET only (R56, R261). -/
theorem memWrite_busy {s t : State} {r : Reg} {v : Word} (hb : s.busy = true) (h : memWrite r v s = .next t) :
    t = { s with err := t.err, dataIn := t.dataIn, target := t.target } := by
  obtain ⟨t', ht', hr⟩ := memWrite_next r v s
  rw [h] at ht'
  cases ht'
  cases hr with
  | refused b => rfl
  | dataIn _ => rfl
  | target w _ _ _ => rfl
  | block k _ hn => simp [hb] at hn
  | ignored => rfl
  | completed i _ hn _ _ _ => simp [hb] at hn
  | pended i _ hn _ _ _ => simp [hb] at hn

/-! ## The bus access of an edge -/

theorem busAccess_none {c : Cycle} (s : State) (h : c.sel = false) : busAccess c s = .next (s.beginEdge c) := by
  simp [busAccess, h]

theorem busAccess_read {c : Cycle} (s : State) (h : c.sel = true) (hw : c.we = false) :
    busAccess c s = .next { s.beginEdge c with rdata := memRead (regAt c.addr) s } := by
  simp [busAccess, h, hw]

theorem busAccess_write {c : Cycle} (s : State) (h : c.sel = true) (hw : c.we = true) :
    busAccess c s = memWrite (regAt c.addr) c.wdata (s.beginEdge c) := by
  simp [busAccess, h, hw]

/-- Every access answers a next state: the edge begun, with a read's `rdata` or a write's result. -/
theorem busAccess_next (c : Cycle) (s : State) :
    ∃ t, busAccess c s = .next t ∧
      ((∃ w, t = { s.beginEdge c with rdata := w }) ∨
        (c.sel = true ∧ c.we = true ∧ WriteResult (regAt c.addr) c.wdata (s.beginEdge c) t)) := by
  cases hs : c.sel with
  | false => exact ⟨_, busAccess_none s hs, .inl ⟨(s.beginEdge c).rdata, rfl⟩⟩
  | true =>
    cases hw : c.we with
    | false => exact ⟨_, busAccess_read s hs hw, .inl ⟨_, rfl⟩⟩
    | true =>
      rw [busAccess_write s hs hw]
      obtain ⟨t, ht, hr⟩ := memWrite_next (regAt c.addr) c.wdata (s.beginEdge c)
      exact ⟨t, ht, .inr ⟨rfl, rfl, hr⟩⟩

/-- An access of a busy engine reaches the error bits, DATA_IN, TARGET and what the edge itself sets. -/
theorem busAccess_busy {s : State} (c : Cycle) (hb : s.busy = true) :
    ∃ t, busAccess c s = .next t ∧
      t = { s.beginEdge c with err := t.err, dataIn := t.dataIn, target := t.target, rdata := t.rdata } := by
  obtain ⟨t, ht, ⟨w, rfl⟩ | ⟨hs, hw, -⟩⟩ := busAccess_next c s
  · exact ⟨_, ht, rfl⟩
  · refine ⟨t, ht, ?_⟩
    rw [busAccess_write s hs hw] at ht
    have h := memWrite_busy (by simpa using hb) ht
    rw [h]

/-! ## The edge -/

theorem clockEdge_reset {c : Cycle} (s : State) (h : c.rstN = false) : clockEdge c s = .next (s.resetEdge c) := by
  simp [clockEdge, h]

theorem engineTurn_idle {before : State} (hp : before.pending = none) (c : Cycle) (s : State) :
    engineTurn c before s = .next s := by
  simp [engineTurn, hp]

theorem engineTurn_waits {before : State} {p : Pending} (hp : before.pending = some p) (hl : 1 < p.left) (c : Cycle)
    (s : State) : engineTurn c before s = .next { s with pending := some { p with left := p.left - 1 } } := by
  simp [engineTurn, hp, show ¬ p.left ≤ 1 by omega]

theorem engineTurn_completes {before : State} {p : Pending} (hp : before.pending = some p) (hl : p.left ≤ 1) (c : Cycle)
    (s : State) : engineTurn c before s = completePending p (busyEdgeError c before) s := by
  simp [engineTurn, hp, hl]

theorem clockEdge_running {c : Cycle} {s t : State} (h : c.rstN = true) (ht : busAccess c s = .next t) :
    clockEdge c s = engineTurn c s t := by
  simp [clockEdge, h, ht]

theorem clockEdge_idle {c : Cycle} {s : State} (h : c.rstN = true) (hp : s.pending = none) :
    clockEdge c s = busAccess c s := by
  obtain ⟨t, ht, -⟩ := busAccess_next c s
  simp [clockEdge, h, ht, engineTurn, hp]

theorem clockEdge_waits {c : Cycle} {s : State} {p : Pending} (h : c.rstN = true) (hp : s.pending = some p)
    (hl : 1 < p.left) :
    ∃ t, busAccess c s = .next t ∧
      clockEdge c s = .next { t with pending := some { p with left := p.left - 1 } } := by
  obtain ⟨t, ht, -⟩ := busAccess_next c s
  exact ⟨t, ht, by simp [clockEdge, h, ht, engineTurn, hp, show ¬ p.left ≤ 1 by omega]⟩

theorem clockEdge_completes {c : Cycle} {s : State} {p : Pending} (h : c.rstN = true) (hp : s.pending = some p)
    (hl : p.left ≤ 1) :
    ∃ t, busAccess c s = .next t ∧ clockEdge c s = completePending p (busyEdgeError c s) t := by
  obtain ⟨t, ht, -⟩ := busAccess_next c s
  exact ⟨t, ht, by simp [clockEdge, h, ht, engineTurn, hp, hl]⟩

/-- The completion of a legal command answers its effect with `pending` cleared; only the error bits of an INIT are left to the
free value (R260, log entry 4). -/
theorem completePending_next {p : Pending} {i : Instr} (h : decode p.cmd = .ok i) (raised : Option ErrBit) (s : State) :
    ∃ e, completePending p raised s = .next { effectOf i p.data s with pending := none, err := e } ∧
      (i ≠ .init → e = s.err) ∧ (raised = none → e = (effectOf i p.data s).err) := by
  cases i with
  | init =>
    cases raised with
    | none => exact ⟨Errors.none, by simp [completePending, h, effectOf, effectInit], by simp, fun _ => rfl⟩
    | some b =>
      cases hf : Config.errorOutlivesInit s.draws with
      | true =>
        exact ⟨Errors.none.set b, by simp [completePending, h, effectOf, effectInit, hf, State.raise], by simp, by simp⟩
      | false =>
        exact ⟨Errors.none, by simp [completePending, h, effectOf, effectInit, hf], by simp, by simp⟩
  | absorb n =>
    refine ⟨s.err, ?_, fun _ => rfl, fun _ => by simp [effectOf_err]⟩
    have he := effectOf_err (.absorb n) p.data s
    simp only [reduceCtorEq, if_false] at he
    simp [completePending, h, ← he]
  | compress =>
    refine ⟨s.err, ?_, fun _ => rfl, fun _ => by simp [effectOf_err]⟩
    have he := effectOf_err .compress p.data s
    simp only [reduceCtorEq, if_false] at he
    simp [completePending, h, ← he]
  | finalize =>
    refine ⟨s.err, ?_, fun _ => rfl, fun _ => by simp [effectOf_err]⟩
    have he := effectOf_err .finalize p.data s
    simp only [reduceCtorEq, if_false] at he
    simp [completePending, h, ← he]

theorem completePending_quiet {p : Pending} {i : Instr} (h : decode p.cmd = .ok i) (s : State) :
    completePending p none s = .next { effectOf i p.data s with pending := none } := by
  cases i <;> simp [completePending, h]

theorem completePending_illegal {p : Pending} {e : DecodeError} (h : decode p.cmd = .error e) (raised : Option ErrBit)
    (s : State) : completePending p raised s = .fault .pendingNotLegal := by
  simp [completePending, h]

/-! ## The step -/

theorem step_cons {s : State} {c : Cycle} {rest : List Cycle} (h : s.inputs = c :: rest) :
    step s = clockEdge c { s with inputs := rest } := by
  simp [step, h]

theorem step_with_inputs (s : State) (c : Cycle) (rest : List Cycle) :
    step { s with inputs := c :: rest } = clockEdge c { s with inputs := rest } := rfl

theorem step_nil {s : State} (h : s.inputs = []) : step s = clockEdge (idleCycle s.lat) s := by
  simp [step, h]

/-! ## What the checks read -/

/-- The checks of a command read `busy`, `buf_fill`, `msg_len` and `phase` only (R226, R261). -/
theorem checkOf_congr (i : Instr) {s t : State} (hb : t.busy = s.busy) (hf : t.bufFill = s.bufFill)
    (hl : t.msgLen = s.msgLen) (hp : t.phase = s.phase) : checkOf i t = checkOf i s := by
  cases i <;> simp [checkOf, checkInit, checkAbsorb, checkCompress, checkFinalize, State.tooLong, hb, hf, hl, hp]

/-- An edge without reset: its access, then the engine's part. -/
theorem clockEdge_running_inv {c : Cycle} {s t : State} (hr : c.rstN = true) (h : clockEdge c s = .next t) :
    ∃ u, busAccess c s = .next u ∧ engineTurn c s u = .next t := by
  obtain ⟨u, hu, -⟩ := busAccess_next c s
  exact ⟨u, hu, by rw [← clockEdge_running hr hu, h]⟩

/-- An access that is no write leaves every register as it was. -/
theorem busAccess_quiet {c : Cycle} (h : ¬ (c.sel = true ∧ c.we = true)) (s : State) :
    ∃ w, busAccess c s = .next { s.beginEdge c with rdata := w } := by
  cases hs : c.sel with
  | false => exact ⟨(s.beginEdge c).rdata, busAccess_none s hs⟩
  | true =>
    cases hw : c.we with
    | false => exact ⟨_, busAccess_read s hs hw⟩
    | true => exact absurd ⟨hs, hw⟩ h

theorem busyEdgeError_quiet {c : Cycle} (h : ¬ (c.sel = true ∧ c.we = true)) (s : State) : busyEdgeError c s = none := by
  cases hs : c.sel <;> cases hw : c.we <;> simp_all [busyEdgeError]

/-- What a write leaves in DATA_IN, TARGET and the error bits of a busy engine (R56, R222, R225). -/
theorem memWrite_busy_fields {s : State} (r : Reg) (v : Word) (hb : s.busy = true) :
    ∃ t, memWrite r v s = .next t ∧
      t.dataIn = (if r = .dataIn then v else s.dataIn) ∧
      t.target.toNat = (if r = .target ∧ v.toNat ≤ 256 then v.toNat else s.target.toNat) ∧
      t.err = if r = .cmd ∨ ∃ k, r = .block k then s.err.set .busy
        else if r = .target ∧ 256 < v.toNat then s.err.set .target else s.err := by
  cases r with
  | cmd => exact ⟨_, memWrite_cmd_busy v hb, by simp [State.raise]⟩
  | block k => exact ⟨_, memWrite_block_busy k v hb, by simp [State.raise]⟩
  | dataIn => exact ⟨_, rfl, by simp⟩
  | target =>
    by_cases h : v.toNat ≤ 256
    · exact ⟨_, memWrite_target_low h, by simp [h, target_toNat h, show ¬ 256 < v.toNat by omega]⟩
    · exact ⟨_, memWrite_target_high (by omega), by simp [h, State.raise, show 256 < v.toNat by omega]⟩
  | status => exact ⟨_, rfl, by simp⟩
  | lzc => exact ⟨_, rfl, by simp⟩
  | msglenLo => exact ⟨_, rfl, by simp⟩
  | msglenHi => exact ⟨_, rfl, by simp⟩
  | reserved => exact ⟨_, rfl, by simp⟩
  | digest i => exact ⟨_, rfl, by simp⟩

/-- What any access leaves in DATA_IN, TARGET and the error bits of a busy engine (R51, R267). -/
theorem busAccess_busy_fields {s : State} (c : Cycle) (hb : s.busy = true) :
    ∃ u, busAccess c s = .next u ∧ u.inputs = s.inputs ∧
      u.dataIn = (if c.sel = true ∧ c.we = true ∧ regAt c.addr = .dataIn then c.wdata else s.dataIn) ∧
      u.target.toNat = (if c.sel = true ∧ c.we = true ∧ regAt c.addr = .target ∧ c.wdata.toNat ≤ 256
        then c.wdata.toNat else s.target.toNat) ∧
      u.err = if c.sel = true ∧ c.we = true ∧ (regAt c.addr = .cmd ∨ ∃ k, regAt c.addr = .block k) then
          s.err.set .busy
        else if c.sel = true ∧ c.we = true ∧ regAt c.addr = .target ∧ 256 < c.wdata.toNat then s.err.set .target
        else s.err := by
  obtain ⟨u, hu, he⟩ := busAccess_busy c hb
  have hin : u.inputs = s.inputs := by rw [he]; rfl
  by_cases hq : c.sel = true ∧ c.we = true
  · obtain ⟨t, ht, h1, h2, h3⟩ := memWrite_busy_fields (s := s.beginEdge c) (regAt c.addr) c.wdata hb
    rw [busAccess_write s hq.1 hq.2, ht] at hu
    cases hu
    refine ⟨u, by rw [busAccess_write s hq.1 hq.2, ht], hin, ?_, ?_, ?_⟩
    · simpa [hq] using h1
    · simpa [hq] using h2
    · simpa [hq] using h3
  · obtain ⟨w, hw⟩ := busAccess_quiet hq s
    refine ⟨_, hw, rfl, ?_, ?_, ?_⟩
    · rw [if_neg (fun h => hq ⟨h.1, h.2.1⟩)]; rfl
    · rw [if_neg (fun h => hq ⟨h.1, h.2.1⟩)]; rfl
    · rw [if_neg (fun h => hq ⟨h.1, h.2.1⟩), if_neg (fun h => hq ⟨h.1, h.2.1⟩)]; rfl

/-! ## The draws: every edge takes the next one and no other -/

theorem WriteResult.draws {r : Reg} {v : Word} {s t : State} (h : WriteResult r v s t) : t.draws = s.draws := by
  cases h with
  | completed i _ _ _ _ _ => exact effectOf_draws i s.dataIn s
  | _ => rfl

theorem busAccess_draws {c : Cycle} {s t : State} (h : busAccess c s = .next t) : t.draws = s.draws.next := by
  obtain ⟨t', ht, ⟨w, rfl⟩ | ⟨-, -, hr⟩⟩ := busAccess_next c s
  · rw [h] at ht
    cases ht
    rfl
  · rw [h] at ht
    cases ht
    exact hr.draws

theorem engineTurn_draws {c : Cycle} {before s t : State} (h : engineTurn c before s = .next t) : t.draws = s.draws := by
  cases hp : before.pending with
  | none =>
    rw [engineTurn_idle hp] at h
    cases h
    rfl
  | some p =>
    by_cases hl : p.left ≤ 1
    · rw [engineTurn_completes hp hl] at h
      cases hd : decode p.cmd with
      | error e =>
        rw [completePending_illegal hd] at h
        cases h
      | ok i =>
        obtain ⟨e, he, -, -⟩ := completePending_next hd (busyEdgeError c before) s
        rw [he] at h
        cases h
        exact effectOf_draws i p.data s
    · rw [engineTurn_waits hp (by omega)] at h
      cases h
      rfl

theorem clockEdge_draws {c : Cycle} {s t : State} (h : clockEdge c s = .next t) : t.draws = s.draws.next := by
  cases hr : c.rstN with
  | false =>
    rw [clockEdge_reset s hr] at h
    cases h
    rfl
  | true =>
    obtain ⟨u, hu, he⟩ := clockEdge_running_inv hr h
    rw [engineTurn_draws he, busAccess_draws hu]

theorem step_draws {s t : State} (h : step s = .next t) : t.draws = s.draws.next := by
  cases hin : s.inputs with
  | nil =>
    rw [step_nil hin] at h
    exact clockEdge_draws h
  | cons c rest =>
    rw [step_cons hin] at h
    exact clockEdge_draws (s := { s with inputs := rest }) h

end Sys2Proof.Machine
end

