-- ==== Sys2Proof/Laws/PerInstr.lean ====
section
/-!
SUPPORT. Facts about every instruction as syntax, one lemma per constructor.
-/

/-- The fields of the encoded word are those of the format CMDW (R80): RSVD 0, OP the row's value (R82), NBYTES the count of an
ABSORB and 0 in every other command. -/
def Sys2Proof.Laws.EncodedFields.Statement (i : Sys2Proof.Instr) : Prop :=
  Sys2Proof.rsvdField (Sys2Proof.encode i) = 0#25 ∧
  Sys2Proof.opField (Sys2Proof.encode i) =
    (match i with | .init => 0x1#4 | .absorb _ => 0x2#4 | .compress => 0x3#4 | .finalize => 0x4#4) ∧
  Sys2Proof.nbytesField (Sys2Proof.encode i) =
    (match i with | .init => 0#3 | .absorb n => n | .compress => 0#3 | .finalize => 0#3)

theorem Sys2Proof.Laws.EncodedFields.init : Sys2Proof.Laws.EncodedFields.Statement .init := by
  refine ⟨by decide, by decide, by decide⟩

theorem Sys2Proof.Laws.EncodedFields.absorb (n : BitVec 3) :
    Sys2Proof.Laws.EncodedFields.Statement (.absorb n) := by
  revert n
  unfold Sys2Proof.Laws.EncodedFields.Statement
  decide

theorem Sys2Proof.Laws.EncodedFields.compress : Sys2Proof.Laws.EncodedFields.Statement .compress := by
  refine ⟨by decide, by decide, by decide⟩

theorem Sys2Proof.Laws.EncodedFields.finalize : Sys2Proof.Laws.EncodedFields.Statement .finalize := by
  refine ⟨by decide, by decide, by decide⟩
end

