-- ==== Sys2Proof/Laws/System.lean ====
section
/-!
SUPPORT. What an edge of one engine does to a system, said once.
-/

namespace Sys2Proof.Machine

@[simp] theorem inStream_stream (s : State) (k : Nat) : (s.inStream k).draws.stream = k := rfl
@[simp] theorem inStream_number (s : State) (k : Nat) : (s.inStream k).draws.number = s.draws.number := rfl

/-- A state on stream `k` already is as it is. -/
theorem inStream_eq {s : State} {k : Nat} (h : s.draws.stream = k) : s.inStream k = s := by
  subst h
  rfl

/-- Engine `k` of a system draws from stream `k`. -/
theorem engineAt_stream {sys : System} {k : Nat} {e : Engine} (h : sys.engineAt k = some e) : e.state.draws.stream = k := by
  simp only [System.engineAt, Option.map_eq_some_iff] at h
  obtain ⟨e', -, rfl⟩ := h
  rfl

theorem engineAt_base {sys : System} {k : Nat} {e : Engine} (h : sys.engineAt k = some e) :
    ∃ hk : k < sys.engines.length, sys.engines[k].base = e.base := by
  simp only [System.engineAt, Option.map_eq_some_iff] at h
  obtain ⟨e', he, rfl⟩ := h
  obtain ⟨hk, hg⟩ := List.getElem?_eq_some_iff.1 he
  exact ⟨hk, by rw [hg]⟩

/-- An edge that keeps the stream replaces the state of engine `k`, and nothing else. -/
theorem onEngine_next {sys : System} {k : Nat} {e : Engine} {s : State}
    {edge : State → Host.Outcome State Fault Refusal} (he : sys.engineAt k = some e) (hs : edge e.state = .next s)
    (hd : s.draws.stream = e.state.draws.stream) :
    ∃ sys', sys.onEngine k edge = .next sys' ∧ sys'.engines.map Engine.base = sys.engines.map Engine.base ∧
      sys'.engineAt k = some { e with state := s } ∧ ∀ j, j ≠ k → sys'.engineAt j = sys.engineAt j := by
  obtain ⟨hk, hb⟩ := engineAt_base he
  refine ⟨{ engines := sys.engines.set k { e with state := s } }, by simp [System.onEngine, he, hs], ?_, ?_, ?_⟩
  · apply List.ext_getElem?
    intro j
    by_cases hj : k = j
    · subst hj
      simp [hk, hb]
    · simp [hj]
  · simp [System.engineAt, hk, inStream_eq (hd.trans (engineAt_stream he))]
  · intro j hj
    simp [System.engineAt, Ne.symm hj]

/-- Whether the windows are apart is a matter of the bases alone. -/
theorem wf_of_bases {sys sys' : System} (h : sys'.engines.map Engine.base = sys.engines.map Engine.base) (hw : sys.wf) :
    sys'.wf := by
  have key : ∀ s : System,
      s.wf ↔ (s.engines.map Engine.base).Pairwise fun a b => a + 128 ≤ b ∨ b + 128 ≤ a := by
    intro s
    rw [List.pairwise_map]
  rw [key, h, ← key]
  exact hw

end Sys2Proof.Machine
end

