-- ==== Sys2Proof/Tests/Slice0.lean ====
section
/-!
SUPPORT. Tests: expected values are the spec's (95_test_vectors.md, named in each comment) or written out from its encodings.
After them, for each statement with hypotheses, a state and operands that meet them, at the ends of their ranges.
-/

namespace Sys2Proof.Tests

open Sys2Proof.Machine

/-! ## Small states -/

/-- The state a step answers; the reset state where it stops. -/
def nextOf (o : Host.Outcome State Fault Refusal) : State :=
  match o with
  | .next s => s
  | .fault _ => State.reset
  | .refused _ => State.reset

/-- Latencies that are not 0. -/
def slow : Latencies := { init := 1, absorb := 2, compress := 3, finalize := 1 }

/-- An engine in phase ABSORB with `n` bytes in the block and a DATA_IN word. -/
def filled (n : Fin 64) (data : Word) : State :=
  { State.reset with bufFill := n, msgLen := BitVec.ofNat 64 (8 * n.val), dataIn := data }

/-- An engine in phase FINAL with a given hash state. -/
def final (H : Vector Word 8) (target : BitVec 9) : State :=
  { State.reset with H := H, phase := .final, target := target }

/-- An engine with a command pending. -/
def pendingState (cmd data : Word) (left : Nat) : State :=
  { State.reset with pending := some { cmd := cmd, data := data, left := left } }

/-- The state after the next edge carries a write of `v` to `r`. -/
def wr (r : Reg) (v : Word) (s : State) : State :=
  nextOf (step { s with inputs := writeCycle r v s.lat :: s.inputs })

/-- The state after an edge without access. -/
def idle (s : State) : State := nextOf (step s)

/-! ## Well-formedness: the terms the checks refuse -/

theorem test_wellFormed_absorb_0 : (Instr.absorb 0#3).wellFormed = false := by decide
theorem test_wellFormed_absorb_5 : (Instr.absorb 5#3).wellFormed = false := by decide
theorem test_wellFormed_absorb_7 : (Instr.absorb 7#3).wellFormed = false := by decide
theorem test_wellFormed_absorb_1_to_4 :
    ∀ n : BitVec 3, 1 ≤ n.toNat ∧ n.toNat ≤ 4 ↔ (Instr.absorb n).wellFormed = true := by decide

/-! ## Decoding: words written out from R80 and R82 (RSVD, NBYTES, OP) -/

theorem test_decode_init : decode (0b0000000000000000000000000_000_0001#32) = .ok .init := by decide
theorem test_decode_absorb_1 : decode (0b0000000000000000000000000_001_0010#32) = .ok (.absorb 1#3) := by decide
theorem test_decode_absorb_4 : decode (0b0000000000000000000000000_100_0010#32) = .ok (.absorb 4#3) := by decide
theorem test_decode_compress : decode (0b0000000000000000000000000_000_0011#32) = .ok .compress := by decide
theorem test_decode_finalize : decode (0b0000000000000000000000000_000_0100#32) = .ok .finalize := by decide

/-- V-E-OP0, V-E-OP5, V-E-N0, V-E-N5, V-E-FINN, V-E-RSVD. -/
theorem test_decode_rejects :
    decode 0x00000000#32 = .error .reservedOp ∧ decode 0x00000005#32 = .error .reservedOp ∧
    decode 0x00000002#32 = .error .wrongNbytes ∧ decode 0x00000052#32 = .error .wrongNbytes ∧
    decode 0x00000014#32 = .error .wrongNbytes ∧ decode 0x80000001#32 = .error .reservedBitSet := by decide

/-- The words of R85 as the encoder writes them. -/
theorem test_encode :
    encode .init = 0x00000001#32 ∧ encode (.absorb 1#3) = 0x00000012#32 ∧ encode (.absorb 2#3) = 0x00000022#32 ∧
    encode (.absorb 3#3) = 0x00000032#32 ∧ encode (.absorb 4#3) = 0x00000042#32 ∧ encode .compress = 0x00000003#32 ∧
    encode .finalize = 0x00000004#32 := by decide

/-- The table's match word of ABSORB has NBYTES = 0, which R81 makes illegal; with an NBYTES it decodes. -/
theorem test_decodeTableWord :
    decodeTableWord 32 1 = some .init ∧ decodeTableWord 32 2 = none ∧ decodeTableWord 32 0x12 = some (.absorb 1#3) ∧
    decodeTableWord 32 3 = some .compress ∧ decodeTableWord 32 4 = some .finalize := by decide

/-! ## Reset (V-RST) -/

theorem test_reset_reads :
    memRead .status State.reset = 0#32 ∧ memRead .lzc State.reset = 1#32 ∧
    memRead (.digest 0) State.reset = 0x6a09e667#32 ∧ memRead .target State.reset = 0#32 := by decide +kernel

/-! ## The commands through one step each -/

/-- V-INIT, from an engine with an error bit set and a block begun: the step runs the word placed by `withFetchWord`. -/
theorem test_init :
    let t := nextOf (step (State.withFetchWord { filled 3 0#32 with err := { Errors.none with seq := true } } 32 1))
    t.H = iv ∧ t.bufFill = 0 ∧ t.msgLen = 0#64 ∧ t.err = Errors.none ∧ memRead .status t = 0#32 := by decide +kernel

/-- V-ABS3. -/
theorem test_absorb_3 :
    let t := wr .cmd 0x00000032#32 (filled 0 0x61626300#32)
    memRead .status t = 0x00000300#32 ∧ memRead .msglenLo t = 0x18#32 ∧ memRead (.block 0) t = 0x61626300#32 ∧
      t.H = iv := by decide +kernel

/-- V-ABS-WRAP, the tail: the last two bytes of the word begin the next block. -/
theorem test_absorb_wrap :
    let t := wr .cmd 0x00000042#32 (filled 62 0x11223344#32)
    t.buf[0] = 0x33#8 ∧ t.buf[1] = 0x44#8 ∧ t.buf[62] = 0x11#8 ∧ t.buf[63] = 0x22#8 ∧ t.bufFill = 2 ∧ t.msgLen = 528#64 := by
  decide +kernel

/-- R146: COMPRESS straight after reset. -/
theorem test_compress_zero_block :
    let t := wr .cmd 0x00000003#32 State.reset
    t.H = #v[0xda5698be#32, 0x17b9b469#32, 0x62335799#32, 0x779fbeca#32, 0x8ce5d491#32, 0xc0d26243#32, 0xbafef9ea#32,
      0x1837a9d8#32] ∧ t.msgLen = 512#64 ∧ t.digestValid = false := by decide +kernel

/-- V-E-LENC: one block more would reach 2^64 bits. -/
theorem test_compress_too_long :
    memRead .status (wr .cmd 0x00000003#32 { State.reset with msgLen := 0xfffffffffffffe00#64 }) = 0x00080000#32 := by
  decide +kernel

/-- S1: the digest of the empty message, and its STATUS (V-M0). -/
theorem test_finalize_empty :
    let t := wr .cmd 0x00000004#32 State.reset
    t.H = #v[0xe3b0c442#32, 0x98fc1c14#32, 0x9afbf4c8#32, 0x996fb924#32, 0x27ae41e4#32, 0x649b934c#32, 0xa495991b#32,
      0x7852b855#32] ∧ memRead .status t = 0x00000006#32 := by decide +kernel

/-- S2, R183: the digest of "abc" and the block left behind. -/
theorem test_finalize_abc :
    let t := wr .cmd 0x00000004#32 (wr .cmd 0x00000032#32 (filled 0 0x61626300#32))
    t.H = #v[0xba7816bf#32, 0x8f01cfea#32, 0x414140de#32, 0x5dae2223#32, 0xb00361a3#32, 0x96177a9c#32, 0xb410ff61#32,
      0xf20015ad#32] ∧ memRead (.block 0) t = 0x61626380#32 ∧ memRead (.block 15) t = 0x00000018#32 := by decide +kernel

/-- Row L = 56 of 95_test_vectors.md section 4, as a function of the message. -/
theorem test_hash_56 :
    hashOf ((List.range 56).map fun i => BitVec.ofNat 8 (0x61 + i % 26)) =
      #v[0x784f623b#32, 0x78749507#32, 0x8e93ff28#32, 0xa25b581d#32, 0xf0584055#32, 0xa7e71d8c#32, 0xd90c4547#32,
        0x16b92f51#32] := by decide +kernel

/-! ## The compression (V-W16-23, V-R0) -/

/-- The padded block of "abc". -/
def abcBlock : Vector Byte 64 := blockOf (padMessage [0x61#8, 0x62#8, 0x63#8]) 0

theorem test_schedule_abc :
    (schedule abcBlock)[16] = 0x61626380#32 ∧ (schedule abcBlock)[17] = 0x000f0000#32 ∧
      (schedule abcBlock)[18] = 0x7da86405#32 ∧ (schedule abcBlock)[63] = 0x12b1edeb#32 := by decide +kernel

theorem test_round_0_abc :
    (datapathRound (datapathLoad iv abcBlock) 0).work =
      { a := 0x5d6aebcd#32, b := 0x6a09e667#32, c := 0xbb67ae85#32, d := 0x3c6ef372#32,
        e := 0xfa2a4622#32, f := 0x510e527f#32, g := 0x9b05688c#32, h := 0x1f83d9ab#32 } := by decide +kernel

/-! ## Errors -/

/-- V-E-OP0. -/
theorem test_error_illegal : memRead .status (wr .cmd 0#32 State.reset) = 0x00010000#32 := by decide +kernel

/-- V-E-SEQ2. -/
theorem test_error_seq :
    memRead .status (wr .cmd 0x00000003#32 (filled 1 0#32)) = 0x00020100#32 := by decide +kernel

/-- V-E-LEN and V-LEN-OK. -/
theorem test_error_len :
    memRead .status (wr .cmd 0x00000012#32 { State.reset with msgLen := 0xfffffffffffffff8#64 }) = 0x00080000#32 ∧
    memRead .msglenLo (wr .cmd 0x00000012#32 { State.reset with msgLen := 0xfffffffffffffff0#64 }) = 0xfffffff8#32 := by
  decide +kernel

/-- V-E-TGT, V-E-TGTHI and V-TGT256. -/
theorem test_error_target :
    memRead .status (wr .target 257#32 State.reset) = 0x00100000#32 ∧
    (wr .target 0x00010000#32 State.reset).err.target = true ∧
    (wr .target 256#32 State.reset).target = 256#9 ∧ (wr .target 256#32 State.reset).err = Errors.none := by decide +kernel

/-- V-E-BUSY: refused while the ABSORB is pending; STATUS then shows bits 0 and 18. -/
theorem test_error_busy :
    let t := wr .cmd 0x00000004#32 (pendingState 0x00000032#32 0x61626300#32 2)
    t.err = { Errors.none with busy := true } ∧ t.busy = true ∧ (idle t).bufFill = 3 ∧ (idle t).busy = false := by
  decide +kernel

/-- V-BUSY-DATA: the bytes are those of the issue. -/
theorem test_busy_data :
    let t := wr .dataIn 0xffffffff#32 (pendingState 0x00000042#32 0x61626364#32 1)
    t.buf[0] = 0x61#8 ∧ t.buf[3] = 0x64#8 ∧ t.dataIn = 0xffffffff#32 ∧ t.err = Errors.none := by decide +kernel

/-- V-RO. -/
theorem test_read_only :
    (wr (.digest 0) 0#32 State.reset).H = iv ∧ (wr .status 0xffffffff#32 State.reset).err = Errors.none ∧
      (wr .reserved 1#32 State.reset).err = Errors.none := by decide +kernel

/-- R250: a reset edge overrides the completion and the write at that edge. -/
theorem test_reset_edge :
    let c := { writeCycle .dataIn 5#32 Latencies.zero with rstN := false }
    let t := nextOf (step { pendingState 0x00000032#32 0x61626300#32 1 with inputs := [c] })
    t.dataIn = 0#32 ∧ t.bufFill = 0 ∧ t.busy = false := by decide +kernel

/-! ## Leading zeros and MEETS (section 6) -/

theorem test_lzc :
    lzc (Vector.replicate 8 0#32) = 256 ∧ lzc #v[0x000fffff#32, 0#32, 0#32, 0#32, 0#32, 0#32, 0#32, 0#32] = 12 ∧
    lzc #v[0#32, 0x00008000#32, 0#32, 0#32, 0#32, 0#32, 0#32, 0#32] = 48 ∧
    lzc (Vector.replicate 8 0xffffffff#32) = 0 ∧ lzc iv = 1 := by decide +kernel

/-- V-M8 and V-M9 with the first word of the P5 digest. -/
theorem test_meets :
    let H := #v[0x00e5ef3f#32, 0x8827ee70#32, 0xd244f407#32, 0x5f7e28f2#32, 0x5407be90#32, 0xd4b0db01#32, 0xce94406d#32,
      0x799f7ea4#32]
    memRead .status (final H 8#9) = 0x00000006#32 ∧ memRead .status (wr .target 9#32 (final H 8#9)) = 0x00000002#32 := by
  decide +kernel

/-! ## Host notation (R89) -/

theorem test_hashBytesOps_abc :
    hashBytesOps [0x61#8, 0x62#8, 0x63#8] =
      [.cmd .init, .label 0, .branchIf .status 1#32 0, .wr .dataIn 0x61626300#32, .cmd (.absorb 3#3), .label 2,
        .branchIf .status 1#32 2, .cmd .finalize, .label 1, .branchIf .status 1#32 1] := by decide +kernel

/-- A poll that reads BUSY = 1 goes back to its label, and one that reads 0 goes on. -/
theorem test_wait :
    let h : HostRun := { prog := waitOps 7, pc := 1, engine := State.reset }
    h.nextPc (.branchIf .status 1#32 7) 0x00000001#32 = 0 ∧ h.nextPc (.branchIf .status 1#32 7) 0x00000300#32 = 2 := by
  decide

/-- A host that is not ready lets the edge pass; one that is makes its access (log entry 19). -/
theorem test_host_spacing :
    let h : HostRun := { prog := [.wr .dataIn 9#32], pc := 0, engine := State.reset }
    (match HostRun.step false slow h with
      | .next h' => h'.pc = 0 ∧ h'.engine.dataIn = 0#32
      | .fault _ => False
      | .refused _ => False) ∧
    (match HostRun.step true slow h with
      | .next h' => h'.pc = 1 ∧ h'.engine.dataIn = 9#32
      | .fault _ => False
      | .refused _ => False) := ⟨⟨rfl, rfl⟩, rfl, rfl⟩

/-- R262: a run at a trailing label has made its last access, and one before an access has not. -/
theorem test_host_ended :
    (HostRun.ended { prog := [.wr .dataIn 9#32, .label 0], pc := 1, engine := State.reset }) = true ∧
      (HostRun.ended { prog := [.wr .dataIn 9#32, .label 0], pc := 0, engine := State.reset }) = false ∧
      (HostRun.ended { prog := [.label 0], pc := 0, engine := pendingState 1#32 0#32 1 }) = false := by decide

/-- `ENGINE_BASE + 4·n` selects `n`; other addresses are the interconnect's (R53). -/
theorem test_select :
    let e : Engine := { base := 0x1000, state := State.reset }
    e.select 0x1000 = some 0#5 ∧ e.select 0x107c = some 31#5 ∧ e.select 0x1080 = none ∧ e.select 0x1002 = none := by
  decide

/-! ## Witnesses: what meets the hypotheses of each statement -/

theorem witness_LegalityIsReadFromTheWordAlone :
    decode 0x00000002#32 = .error .wrongNbytes ∧ State.reset.busy = false := by decide

theorem witness_ReadsReturnTheRegisters :
    State.reset.busy = false ∧ (pendingState 1#32 0#32 1).busy = true ∧
      (∀ r ∈ [Reg.lzc, .msglenLo, .msglenHi, .digest 0, .digest 7, .block 0, .block 15],
        r ∈ allRegs ∧ r ∉ [Reg.cmd, .status, .dataIn, .target, .reserved]) := by decide

theorem witness_BusyReadsFixOnlyTheExactFields : (pendingState 1#32 0#32 1).busy = true := by decide

theorem witness_ReadsHaveNoSideEffect :
    (readCycle .status slow).rstN = true ∧ (readCycle .status slow).sel = true ∧ (readCycle .status slow).we = false ∧
      State.reset.busy = false ∧
      ∃ t, step { State.reset with inputs := [{ readCycle .status slow with sel := false }] } = .next t :=
  ⟨rfl, rfl, rfl, rfl, _, rfl⟩

theorem witness_WritesFollowTheRegisterMap :
    (pendingState 1#32 0#32 1).busy = true ∧ State.reset.busy = false ∧ 256 < (257#32).toNat ∧ (256#32).toNat ≤ 256 ∧
      (63 : Fin 64).val / 4 ≠ (14 : Fin 16).val := by decide

theorem witness_BlockWriteReadsBack : State.reset.busy = false ∧ (0 : Fin 16) ≠ 15 := by decide

theorem witness_OnlyCmdWritesDoMoreThanStore :
    Reg.dataIn ≠ .cmd ∧ Reg.target ≠ .cmd ∧ Reg.block 0 ≠ .cmd ∧ Reg.digest 7 ≠ .cmd := by decide

theorem witness_InitReinitialises :
    State.reset.busy = false ∧ State.reset.lat.init = 0 ∧
      ({ State.reset with lat := slow } : State).busy = false ∧ ({ State.reset with lat := slow } : State).lat.init ≠ 0 := by
  decide

theorem witness_AbsorbAppendsWithinTheBlock :
    (filled 0 0#32).busy = false ∧ (filled 0 0#32).phase = .absorb ∧ (filled 0 0#32).lat.absorb = 0 ∧
      (filled 0 0#32).msgLen.toNat + 8 * (1#3).toNat < 2 ^ 64 ∧ (filled 0 0#32).bufFill.val + (1#3).toNat < 64 ∧
      (filled 59 0#32).busy = false ∧ (filled 59 0#32).phase = .absorb ∧ (filled 59 0#32).lat.absorb = 0 ∧
      (filled 59 0#32).msgLen.toNat + 8 * (4#3).toNat < 2 ^ 64 ∧ (filled 59 0#32).bufFill.val + (4#3).toNat < 64 := by
  decide

theorem witness_AbsorbCompressesAFilledBlock :
    (∀ f ∈ [(60 : Fin 64), 63], (filled f 0#32).busy = false ∧ (filled f 0#32).phase = .absorb ∧
      (filled f 0#32).msgLen.toNat + 8 * (4#3).toNat < 2 ^ 64 ∧ (filled f 0#32).lat.absorb = 0 ∧
      64 ≤ (filled f 0#32).bufFill.val + (4#3).toNat) ∧
    64 ≤ (filled 63 0#32).bufFill.val + (1#3).toNat ∧ 1 ≤ (1#3).toNat ∧ (4#3).toNat ≤ 4 := by decide

/-- The longest message that one more block may extend. -/
def nearlyFull : State := { State.reset with msgLen := 0xfffffffffffffc00#64 }

theorem witness_CompressTakesTheRawBlock :
    nearlyFull.busy = false ∧ nearlyFull.phase = .absorb ∧ nearlyFull.bufFill = 0 ∧
      nearlyFull.msgLen.toNat + 512 < 2 ^ 64 ∧ nearlyFull.lat.compress = 0 := by decide

theorem witness_CompressIsAbsorbingTheWholeBlock :
    State.reset.busy = false ∧ State.reset.phase = .absorb ∧ State.reset.bufFill = 0 ∧
      State.reset.msgLen.toNat + 512 < 2 ^ 64 ∧ State.reset.lat.compress = 0 := by decide

theorem witness_FinalizePadsIntoOneBlock :
    ∀ f ∈ [(0 : Fin 64), 55], (filled f 0#32).busy = false ∧ (filled f 0#32).phase = .absorb ∧
      (filled f 0#32).lat.finalize = 0 ∧ (filled f 0#32).bufFill.val ≤ 55 := by decide

theorem witness_FinalizePadsIntoTwoBlocks :
    ∀ f ∈ [(56 : Fin 64), 63], (filled f 0#32).busy = false ∧ (filled f 0#32).phase = .absorb ∧
      (filled f 0#32).lat.finalize = 0 ∧ 56 ≤ (filled f 0#32).bufFill.val := by decide

theorem witness_IssuedCommandIsPending :
    ∀ i ∈ [Instr.init, .absorb 1#3, .absorb 4#3, .compress, .finalize],
      i.wellFormed = true ∧ ({ State.reset with lat := slow } : State).busy = false ∧
        ({ State.reset with lat := slow } : State).phase = .absorb ∧
        ({ State.reset with lat := slow } : State).bufFill = 0 ∧
        ({ State.reset with lat := slow } : State).msgLen.toNat + 512 < 2 ^ 64 ∧
        ({ State.reset with lat := slow } : State).lat.of i ≠ 0 := by decide

theorem witness_CommandCompletesAfterItsLatency :
    let s : State := { State.reset with lat := slow }
    let cs := [writeCycle .dataIn 9#32 slow, idleCycle slow]
    (Instr.absorb 4#3).wellFormed = true ∧ s.busy = false ∧ checkOf (.absorb 4#3) s = none ∧
      cs.length = s.lat.of (.absorb 4#3) ∧ (∀ c ∈ cs, c.rstN = true) ∧ 1 < cs.length ∧
      checkOf .init State.reset = none ∧ ([] : List Cycle).length = State.reset.lat.of .init := by decide

/-- The clauses about edges without a write, and about the last edge of an INIT. -/
theorem witness_CommandCompletes_quietly :
    let s : State := { State.reset with lat := slow }
    let last := writeCycle .target 256#32 slow
    (∀ c ∈ [readCycle .status slow, idleCycle slow], c.rstN = true ∧ ¬ (c.sel = true ∧ c.we = true)) ∧
      checkOf .init s = none ∧ [last].length = s.lat.of .init ∧ [last].getLast? = some last ∧
      regAt last.addr = .target ∧ ¬ 256 < last.wdata.toNat ∧
      regAt last.addr ≠ .cmd ∧ ∀ k : Fin 16, regAt last.addr ≠ .block k := by decide

/-- An engine in phase ABSORB with no partial block and a given length. -/
def lengthState (n : BitVec 64) : State := { State.reset with msgLen := n }

theorem witness_WriteChecksComeInOrder :
    (pendingState 1#32 0#32 1).busy = true ∧
      ((lengthState 0#64).busy = false ∧ legal 0#32 = false) ∧
      ((final iv 0#9).busy = false ∧ legal 0x42#32 = true ∧ (0x42#32).extractLsb' 0 4 ≠ 1#4 ∧ (final iv 0#9).phase = .final) ∧
      ((filled 63 0#32).busy = false ∧ (filled 63 0#32).phase = .absorb ∧ (filled 63 0#32).bufFill ≠ 0) ∧
      (let s := lengthState 0xfffffffffffffff8#64
       s.busy = false ∧ legal 0x12#32 = true ∧ s.phase = .absorb ∧ (0x12#32).extractLsb' 0 4 = 2#4 ∧
         2 ^ 64 ≤ s.msgLen.toNat + 8 * ((0x12#32).extractLsb' 4 3).toNat) ∧
      (let s := lengthState 0xfffffffffffffe00#64
       s.busy = false ∧ legal 3#32 = true ∧ s.phase = .absorb ∧ s.bufFill = 0 ∧ 2 ^ 64 ≤ s.msgLen.toNat + 512) ∧
      (let s := lengthState 0xfffffffffffffff0#64
       s.busy = false ∧ s.phase = .absorb ∧ legal 0x12#32 = true ∧ (0x12#32).extractLsb' 0 4 = 2#4 ∧
         s.msgLen.toNat + 8 * ((0x12#32).extractLsb' 4 3).toNat < 2 ^ 64) ∧
      (nearlyFull.busy = false ∧ nearlyFull.phase = .absorb ∧ nearlyFull.bufFill = 0 ∧ nearlyFull.msgLen.toNat + 512 < 2 ^ 64) ∧
      256 < (257#32).toNat ∧ (256#32).toNat ≤ 256 := by decide

theorem witness_RefusedWriteSetsOneBitAndNothingElse :
    ∃ t, memWrite .cmd 0#32 State.reset = .next t ∧ t.err ≠ State.reset.err :=
  ⟨_, rfl, by decide⟩

/-- An engine with two error bits set, about to see a write. -/
def withErrors (c : Cycle) : State :=
  { State.reset with err := { Errors.none with busy := true, len := true }, inputs := [c] }

/-- No INIT completes at a write to DATA_IN while nothing is pending. -/
theorem no_init_at_dataIn : ¬ InitCompletes (writeCycle .dataIn 0#32 slow) (withErrors (writeCycle .dataIn 0#32 slow)) := by
  rintro (⟨p, h, -⟩ | ⟨-, -, -, h, -⟩)
  · cases h
  · exact absurd h (by decide)

theorem witness_ErrorBitsStayUntilInitOrReset :
    (withErrors (resetCycle slow)).busy = false ∧ (withErrors (resetCycle slow)).lat.init = 0 ∧
      (resetCycle slow).rstN = false ∧ (writeCycle .dataIn 0#32 slow).rstN = true ∧
      (withErrors (writeCycle .dataIn 0#32 slow)).err.get .len = true ∧
      ¬ InitCompletes (writeCycle .dataIn 0#32 slow) (withErrors (writeCycle .dataIn 0#32 slow)) ∧
      ∃ t, step (withErrors (writeCycle .dataIn 0#32 slow)) = .next t :=
  ⟨rfl, rfl, rfl, rfl, rfl, no_init_at_dataIn, _, rfl⟩

/-- The clause about the completion edge of a pending INIT: a refused TARGET write at that edge, and an accepted one. -/
theorem witness_ErrorBits_at_completion :
    (pendingState 1#32 0#32 1).pending = some { cmd := 1#32, data := 0#32, left := 1 } ∧ decode 1#32 = .ok .init ∧
      (∀ v ∈ [256#32, 257#32], (writeCycle .target v slow).rstN = true) ∧
      ¬ (regAt (writeCycle .target 257#32 slow).addr = .cmd ∨ ∃ k, regAt (writeCycle .target 257#32 slow).addr = .block k) ∧
      ¬ 256 < (writeCycle .target 256#32 slow).wdata.toNat := by
  have h : regAt (writeCycle .target 257#32 slow).addr = .target := by decide
  refine ⟨rfl, by decide, by simp [writeCycle], ?_, by simp [writeCycle]⟩
  rw [h]
  simp

theorem witness_WaitingHostNeverRaisesErrBusy :
    (withErrors (writeCycle .cmd 0x12#32 slow)).busy = false ∧
      ∃ t, step (withErrors (writeCycle .cmd 0x12#32 slow)) = .next t ∧ t.err.busy = true :=
  ⟨rfl, _, rfl, rfl⟩

theorem reset_inv : EngineInv State.reset where
  target_le := by decide
  msgLen_bytes := by decide
  fill_absorb := fun _ => by decide
  fill_final := fun h => nomatch h
  pending_sound := fun _ h => nomatch h

/-- A state of the invariant with a command pending. -/
theorem pending_inv : EngineInv (pendingState 0x00000001#32 0#32 2) where
  target_le := by decide
  msgLen_bytes := by decide
  fill_absorb := fun _ => by decide
  fill_final := fun h => nomatch h
  pending_sound := fun p h => by
    obtain rfl : p = { cmd := 0x00000001#32, data := 0#32, left := 2 } := by cases h; rfl
    exact ⟨by decide, .init, by decide, by decide⟩

/-- A state of the invariant in phase FINAL. -/
theorem final_inv : EngineInv (final iv 256#9) where
  target_le := by decide
  msgLen_bytes := by decide
  fill_absorb := fun h => nomatch h
  fill_final := fun _ => by decide
  pending_sound := fun _ h => nomatch h

/-- A state of the invariant in phase FINAL with an INIT about to complete. -/
theorem final_pending_inv :
    EngineInv { final iv 256#9 with pending := some { cmd := 1#32, data := 0#32, left := 1 } } where
  target_le := by decide
  msgLen_bytes := by decide
  fill_absorb := fun h => nomatch h
  fill_final := fun _ => by decide
  pending_sound := fun p h => by
    obtain rfl : p = { cmd := 1#32, data := 0#32, left := 1 } := by cases h; rfl
    exact ⟨by decide, .init, by decide, by decide⟩

/-- Both clauses of the second part: an idle edge, the write of an INIT of latency 0, and the completion of a pending one. -/
theorem witness_DigestStaysUntilInitOrReset :
    (final iv 256#9).busy = false ∧ (final iv 256#9).phase = .final ∧ EngineInv (final iv 256#9) ∧
      (idleCycle slow).rstN = true ∧ ¬ InitCompletes (idleCycle slow) (final iv 256#9) ∧
      (writeCycle .cmd 1#32 Latencies.zero).rstN = true ∧
      InitCompletes (writeCycle .cmd 1#32 Latencies.zero) (final iv 256#9) ∧
      InitCompletes (idleCycle slow) { final iv 256#9 with pending := some { cmd := 1#32, data := 0#32, left := 1 } } ∧
      EngineInv { final iv 256#9 with pending := some { cmd := 1#32, data := 0#32, left := 1 } } := by
  refine ⟨rfl, rfl, final_inv, rfl, ?_, rfl, .inr ⟨rfl, rfl, rfl, rfl, rfl, rfl⟩, .inl ⟨_, rfl, by decide, by decide⟩,
    final_pending_inv⟩
  rintro (⟨p, h, -⟩ | ⟨-, h, -⟩) <;> cases h

/-- A write to CMD, and one to the last BLOCK register. -/
theorem witness_StepRunsTheDecodedCommand :
    (∀ c ∈ [writeCycle .cmd 0x12#32 slow, writeCycle (.block 15) 0x12#32 slow],
      c.rstN = true ∧ c.sel = true ∧ c.we = true) ∧
      regAt (writeCycle (.block 15) 0x12#32 slow).addr = .block 15 ∧ (writeCycle .cmd 0x12#32 slow).addr = 0#5 ∧
      State.reset.busy = false ∧ decode 0x12#32 = .ok (.absorb 1#3) ∧ decode 0#32 = .error .reservedOp ∧
      decodeTableWord 32 0x12 = some (.absorb 1#3) := by decide

/-- No INIT completes at the edge of a busy engine whose command is an ABSORB. -/
theorem no_init_at_absorb (c : Cycle) (n : Nat) : ¬ InitCompletes c (pendingState 0x42#32 7#32 n) := by
  rintro (⟨p, h, -, hd⟩ | ⟨h, -⟩)
  · cases h
    exact absurd (show decode 0x42#32 = .ok .init from hd) (by decide)
  · cases h

/-- The writes of every clause, at a waiting edge and at a completion edge, and an edge without a write. -/
theorem witness_BusyEdgesTakeDataInAndTargetWrites :
    (∀ c ∈ [writeCycle .dataIn 9#32 slow, writeCycle .target 256#32 slow, writeCycle .target 257#32 slow,
      writeCycle .cmd 4#32 slow, writeCycle (.block 15) 4#32 slow, idleCycle slow], c.rstN = true) ∧
      (pendingState 0x42#32 7#32 2).pending = some { cmd := 0x42#32, data := 7#32, left := 2 } ∧ 1 < 2 ∧
      (pendingState 0x42#32 7#32 1).pending = some { cmd := 0x42#32, data := 7#32, left := 1 } ∧
      decode 0x42#32 = .ok (.absorb 4#3) ∧
      (∀ c, ¬ InitCompletes c (pendingState 0x42#32 7#32 2)) ∧ (∀ c, ¬ InitCompletes c (pendingState 0x42#32 7#32 1)) ∧
      (256#32).toNat ≤ 256 ∧ 256 < (257#32).toNat :=
  ⟨by decide, rfl, by decide, rfl, by decide, fun c => no_init_at_absorb c 2, fun c => no_init_at_absorb c 1, by decide,
    by decide⟩

/-- R267: TARGET and DATA_IN written at the completion edge of an ABSORB. -/
theorem test_write_at_completion :
    (wr .target 256#32 (pendingState 0x42#32 7#32 1)).target = 256#9 ∧
      (wr .dataIn 9#32 (pendingState 0x42#32 7#32 1)).dataIn = 9#32 ∧
      (wr .dataIn 9#32 (pendingState 0x42#32 7#32 1)).busy = false := by decide +kernel

theorem witness_CompletionEdgeRefusesAWrite :
    (∀ c ∈ [writeCycle .cmd 4#32 slow, writeCycle (.block 15) 4#32 slow], c.rstN = true ∧ c.sel = true ∧ c.we = true) ∧
      regAt (writeCycle .cmd 4#32 slow).addr = .cmd ∧ regAt (writeCycle (.block 15) 4#32 slow).addr = .block 15 ∧
      (pendingState 0x42#32 7#32 1).pending = some { cmd := 0x42#32, data := 7#32, left := 1 } ∧
      decode 0x42#32 = .ok (.absorb 4#3) ∧ Instr.absorb 4#3 ≠ .init ∧
      (∀ c ∈ [idleCycle slow, readCycle .status slow], c.rstN = true ∧ ¬ (c.sel = true ∧ c.we = true)) ∧
      (pendingState 1#32 0#32 1).pending = some { cmd := 1#32, data := 0#32, left := 1 } ∧ decode 1#32 = .ok .init := by
  decide

theorem witness_BusyEdgesKeepTheEngineRegisters :
    (pendingState 0x42#32 7#32 2).pending = some { cmd := 0x42#32, data := 7#32, left := 2 } ∧
      (writeCycle .target 3#32 slow).rstN = true ∧ 1 < 2 := by decide

theorem witness_ResetEdgeSetsEveryRegister :
    (resetCycle slow).rstN = false ∧ ({ writeCycle .cmd 1#32 slow with rstN := false } : Cycle).rstN = false := by decide

theorem witness_ResetEqualsInitButForKeptRegisters : State.reset.busy = false ∧ State.reset.lat.init = 0 := by decide

theorem witness_PendingCommandEndsInBoundedTime :
    EngineInv (pendingState 0x00000001#32 0#32 2) ∧
      (pendingState 0x00000001#32 0#32 2).pending = some { cmd := 0x00000001#32, data := 0#32, left := 2 } ∧
      (∀ c ∈ (pendingState 0x00000001#32 0#32 2).inputs.take 2, c.rstN = true) ∧ 1 < 2 :=
  ⟨pending_inv, rfl, by decide, by decide⟩

theorem witness_LzcCountsTheLeadingZerosOfTheDigest :
    0 = (0#32 ++ 0#32 ++ 0#32 ++ 0#32 ++ 0#32 ++ 0#32 ++ 0#32 ++ 0#32).toNat ∧
      1 = (0#32 ++ 0#32 ++ 0#32 ++ 0#32 ++ 0#32 ++ 0#32 ++ 0#32 ++ 1#32).toNat := by decide

theorem witness_LzcRangeAndCorners :
    (0x000fffff#32).extractLsb' 16 16 = 0x000f#16 ∧ (0xff000000#32).extractLsb' 24 8 = 0xff#8 := by decide

theorem witness_MeetsComparesTheCountWithTarget :
    (State.reset.busy = false ∧ State.reset.phase = .absorb ∧ State.reset.lat.finalize = 0 ∧ State.reset.target = 0#9) ∧
      ((final iv 256#9).phase = .final ∧ (final iv 256#9).target = 256#9) ∧ (256#32).toNat ≤ 256 := by decide

theorem witness_EveryStepKeepsTheInvariant : EngineInv State.reset ∧ ∃ t, step State.reset = .next t :=
  ⟨reset_inv, _, rfl⟩

theorem witness_SoundStatesNeverStop :
    EngineInv State.reset ∧ EngineInv (pendingState 0x00000001#32 0#32 2) ∧ EngineInv (final iv 256#9) :=
  ⟨reset_inv, pending_inv, final_inv⟩

theorem witness_ReachableIdleStatesMeetR38 :
    ∃ t : State, Sys2Proof.core.run 1 { State.reset with inputs := [writeCycle .cmd 4#32 Latencies.zero] } = .next t ∧
      t.busy = false ∧ t.phase = .final :=
  ⟨_, rfl, rfl, rfl⟩

theorem witness_InternalRegistersAreNeverObserved :
    ∃ t : State, Sys2Proof.core.run 1 { State.reset with inputs := [writeCycle .cmd 3#32 Latencies.zero] } = .next t :=
  ⟨_, rfl⟩

/-- A host that polls STATUS `n` times. -/
def polled (lat : Latencies) (n : Nat) : Waited := { lat := lat, edges := List.replicate n (readCycle .status lat) }

/-- "abc" in one piece, polled at each edge of its latency and once more. -/
def abcPieces : List Piece := [{ nbytes := 3#3, data := 0x61626300#32, between := [], waited := polled slow 3 }]

/-- "abc" in two pieces, one with an idle edge between its writes and no more edges than its latency, one of latency 0 with no wait. -/
def abcOtherPieces : List Piece :=
  [{ nbytes := 1#3, data := 0x61ffffff#32, between := [idleCycle slow], waited := polled slow 2 },
    { nbytes := 2#3, data := 0x62630000#32, between := [], waited := polled Latencies.zero 0 }]

theorem witness_HashCommandsGiveTheDigest :
    State.reset.busy = false ∧ (polled slow 2).long .init = true ∧ (polled slow 1).long .finalize = true ∧
      (∀ p ∈ abcPieces, p.wellFormed = true) ∧ 8 * (abcPieces.flatMap Piece.bytes).length < 2 ^ 64 ∧
      abcPieces.flatMap Piece.bytes = [0x61#8, 0x62#8, 0x63#8] := by decide

theorem witness_StreamingDoesNotDependOnThePieces :
    State.reset.busy = false ∧ (final iv 0#9).busy = false ∧
      (∀ w ∈ [polled slow 1, polled Latencies.zero 0], w.long .init = true ∧ w.long .finalize = true) ∧
      (∀ p ∈ abcPieces ++ abcOtherPieces, p.wellFormed = true) ∧
      8 * (abcPieces.flatMap Piece.bytes).length < 2 ^ 64 ∧
      abcPieces.flatMap Piece.bytes = abcOtherPieces.flatMap Piece.bytes := by decide

theorem witness_PaddingFillsTheLeastNumberOfBlocks :
    let M : List Byte := [0x61#8, 0x62#8, 0x63#8]
    M.length + 1 + 8 ≤ 64 * 1 ∧ M.length < 4 ∧ 55 + 8 < (padMessage M).length ∧ 7 < 8 := by decide

theorem witness_ScheduleFollowsTheRecurrence : 15 < 16 ∧ (16 ≤ 16 ∧ 16 < 64) ∧ (16 ≤ 63 ∧ 63 < 64) := by decide

/-- Two engines side by side. -/
def twoEngines : System := System.reset [0x1000, 0x1080]

/-- An access at the second engine's TARGET (R52: offset 0x0C) reaches that engine and not the first. -/
theorem test_access :
    (match twoEngines.access 0x108c (writeCycle .cmd 7#32 Latencies.zero) with
      | .next sys => (sys.engineAt 0).map (fun e => e.state.target) = some 0#9 ∧
          (sys.engineAt 1).map (fun e => e.state.target) = some 7#9
      | .fault _ => False
      | .refused _ => False) := ⟨rfl, rfl⟩

/-- The free values of two engines are drawn apart even where both have taken as many edges. -/
theorem test_engines_draw_apart :
    (twoEngines.engineAt 0).map (fun e => e.state.draws) = some { stream := 0, number := 0 } ∧
      (twoEngines.engineAt 1).map (fun e => e.state.draws) = some { stream := 1, number := 0 } := by decide

theorem witness_EnginesShareNothing :
    (∃ sys', twoEngines.stepEngine 1 = .next sys') ∧ (0 : Nat) ≠ 1 ∧ twoEngines.wf ∧
      (∃ e, twoEngines.engineAt 0 = some e) ∧ ∃ f, twoEngines.engineAt 1 = some f :=
  ⟨⟨_, rfl⟩, by decide, by decide, ⟨_, rfl⟩, ⟨_, rfl⟩⟩

theorem witness_SystemAccessReachesTheAddressedEngine :
    twoEngines.wf ∧ (∃ e, twoEngines.engineAt 0 = some e ∧ EngineInv e.state) ∧
      ∀ e ∈ twoEngines.engines, ∀ n : BitVec 5, (0x1100 : Nat) ≠ e.base + 4 * n.toNat :=
  ⟨by decide, ⟨_, rfl, ⟨reset_inv.1, reset_inv.2, reset_inv.3, reset_inv.4, fun _ h => nomatch h⟩⟩, by decide⟩

end Sys2Proof.Tests
end

/-! # The state (10_state.md)

The invariant of R38 along every run, the internal registers that no run observes, and the error bits that stay. -/

namespace Sys2Proof.Machine

/-! ## The word of a decoded command -/

/-- The three fields of CMDW make up the whole word (R80). -/
theorem fields_append (v : Word) : rsvdField v ++ nbytesField v ++ opField v = v := by
  ext j hj
  simp only [rsvdField, nbytesField, opField, BitVec.getElem_append, BitVec.getElem_extractLsb']
  split_ifs
  · simp [BitVec.getLsbD_eq_getElem hj]
  · rw [← BitVec.getLsbD_eq_getElem hj]; congr 1; omega
  · rw [← BitVec.getLsbD_eq_getElem hj]; congr 1; omega

theorem eq_cmdWord {v : Word} {op : BitVec 4} {n : BitVec 3} (hr : rsvdField v = 0#25) (ho : opField v = op)
    (hn : nbytesField v = n) : v = cmdWord op n := by
  rw [← fields_append v, hr, ho, hn, cmdWord]

/-- A word decodes to no command but the one it encodes. -/
theorem eq_encode_of_decode {v : Word} {i : Instr} (h : decode v = .ok i) : v = encode i := by
  unfold decode at h
  split_ifs at h with hr h1 hn h2 hn h3 hn h4 hn <;> cases h
  · exact eq_cmdWord (not_not.1 hr) h1 hn
  · exact eq_cmdWord (not_not.1 hr) h2 rfl
  · exact eq_cmdWord (not_not.1 hr) h3 hn
  · exact eq_cmdWord (not_not.1 hr) h4 hn

/-! ## What a passed check says (R226) -/

theorem phase_absorb_of_ne_final {p : Phase} (h : p ≠ .final) : p = .absorb := by
  cases p with
  | absorb => rfl
  | final => exact absurd rfl h

theorem msgLen_fits {s : State} {n : Nat} (h : ¬ s.tooLong n = true) : s.msgLen.toNat + n < 2 ^ 64 :=
  not_le.1 (by simpa only [State.tooLong, decide_eq_true_eq] using h)

theorem checkAbsorb_none {n : BitVec 3} {s : State} (h : checkOf (.absorb n) s = none) :
    s.phase = .absorb ∧ s.msgLen.toNat + 8 * n.toNat < 2 ^ 64 := by
  simp only [checkOf, checkAbsorb] at h
  split_ifs at h with _ _ hp hl
  exact ⟨phase_absorb_of_ne_final hp, msgLen_fits hl⟩

theorem checkCompress_none {s : State} (h : checkOf .compress s = none) :
    s.phase = .absorb ∧ s.bufFill = 0 ∧ s.msgLen.toNat + 512 < 2 ^ 64 := by
  simp only [checkOf, checkCompress] at h
  split_ifs at h with _ hp hf hl
  exact ⟨phase_absorb_of_ne_final hp, not_not.1 hf, msgLen_fits hl⟩

theorem checkOf_clearPending (i : Instr) {s : State} (h : s.busy = false) :
    checkOf i { s with pending := none } = checkOf i s :=
  checkOf_congr i h.symm rfl rfl rfl

/-! ## The invariant of R38 -/

/-- The invariant reads TARGET, `msg_len`, `buf_fill`, `phase` and `pending` only, and of TARGET its range alone. -/
theorem EngineInv.congr {s t : State} (h : EngineInv s) (htarget : t.target.toNat ≤ 256) (hlen : t.msgLen = s.msgLen)
    (hfill : t.bufFill = s.bufFill) (hphase : t.phase = s.phase) (hpending : t.pending = s.pending) : EngineInv t where
  target_le := htarget
  msgLen_bytes := by rw [hlen]; exact h.msgLen_bytes
  fill_absorb := by rw [hphase, hlen, hfill]; exact h.fill_absorb
  fill_final := by rw [hphase, hfill]; exact h.fill_final
  pending_sound := by
    rw [hpending]
    intro p hp
    obtain ⟨hleft, i, hdecode, hcheck⟩ := h.pending_sound p hp
    exact ⟨hleft, i, hdecode, by rw [← hcheck]; exact checkOf_congr i rfl hfill hlen hphase⟩

/-- The registers of R38 stay sound under any sound choice of what is pending. -/
theorem EngineInv.withPending {s : State} (h : EngineInv s) {q : Option Pending}
    (hq : ∀ p, q = some p → PendingSound s p) : EngineInv { s with pending := q } :=
  ⟨h.target_le, h.msgLen_bytes, h.fill_absorb, h.fill_final, hq⟩

/-- Settles O47: nothing is pending, no byte is stored and no bit is counted. -/
theorem resetMeetsTheInvariant : Obligations.ResetMeetsTheInvariant where
  target_le := by decide
  msgLen_bytes := by decide
  fill_absorb := fun _ => by decide
  fill_final := fun h => nomatch h
  pending_sound := fun _ h => nomatch h

theorem resetEdge_inv (s : State) (c : Cycle) : EngineInv (s.resetEdge c) :=
  resetMeetsTheInvariant.congr resetMeetsTheInvariant.target_le rfl rfl rfl rfl

/-- The effect of a command whose checks pass keeps the invariant: INIT and FINALIZE empty the buffer, ABSORB moves `buf_fill`
and `msg_len` together, and COMPRESS counts a whole block. -/
theorem effectOf_inv {i : Instr} {s : State} (data : Word) (h : EngineInv s)
    (hcheck : checkOf i { s with pending := none } = none) : EngineInv { effectOf i data s with pending := none } := by
  have htarget : (effectOf i data s).target.toNat ≤ 256 := by rw [effectOf_target]; exact h.target_le
  have hbytes := h.msgLen_bytes
  cases i with
  | init => exact ⟨htarget, rfl, fun _ => by simp [effectOf], fun hp => (nomatch hp), fun _ hp => (nomatch hp)⟩
  | absorb n =>
    obtain ⟨hphase, hlong⟩ := checkAbsorb_none hcheck
    have hlen : (effectOf (.absorb n) data s).msgLen.toNat = s.msgLen.toNat + 8 * n.toNat := msgLen_add hlong
    have hfill : (effectOf (.absorb n) data s).bufFill.val = (s.bufFill.val + n.toNat) % 64 := by
      rw [← absorbedBytes_length n data]; exact absorbBytes_bufFill _ s
    have hphase' : (effectOf (.absorb n) data s).phase = .absorb := (absorbBytes_storesOnly _ s).phase.trans hphase
    have hcount := h.fill_absorb hphase
    refine ⟨htarget, ?_, fun _ => ?_, fun hp => ?_, fun _ hp => (nomatch hp)⟩
    · simp only [hlen]; omega
    · simp only [hlen, hfill]; omega
    · rw [hphase'] at hp; cases hp
  | compress =>
    obtain ⟨hphase, hfill, hlong⟩ := checkCompress_none hcheck
    have hlen : (effectOf .compress data s).msgLen.toNat = s.msgLen.toNat + 512 := msgLen_add hlong
    have hsame : (effectOf .compress data s).bufFill = s.bufFill := rfl
    have hcount := h.fill_absorb hphase
    refine ⟨htarget, ?_, fun _ => ?_, fun _ => hfill, fun _ hp => (nomatch hp)⟩
    · simp only [hlen]; omega
    · simp only [hlen, hsame]; omega
  | finalize =>
    have hlen : (effectOf .finalize data s).msgLen = s.msgLen := (pad_storesOnly s).msgLen
    exact ⟨htarget, by simp only [hlen]; exact hbytes, fun hp => (nomatch hp), fun _ => rfl, fun _ hp => (nomatch hp)⟩

/-- A write keeps the invariant: TARGET takes 0 to 256 only, and a command passes its checks before it has an effect or is
pending. -/
theorem WriteResult.inv {r : Reg} {v : Word} {s t : State} (hw : WriteResult r v s t) (h : EngineInv s) : EngineInv t := by
  cases hw with
  | refused b => exact h.congr h.target_le rfl rfl rfl rfl
  | dataIn _ => exact h.congr h.target_le rfl rfl rfl rfl
  | block k _ _ => exact h.congr h.target_le rfl rfl rfl rfl
  | ignored => exact h
  | target w _ _ hle => exact h.congr hle rfl rfl rfl rfl
  | completed i _ hb hdecode hcheck _ =>
    have hp : s.pending = none := (busy_eq_false_iff s).1 hb
    have hdone := effectOf_inv s.dataIn h ((checkOf_clearPending i hb).trans hcheck)
    exact hdone.congr hdone.target_le rfl rfl rfl ((effectOf_pending i s.dataIn s).trans hp)
  | pended i _ hb hdecode hcheck hlat =>
    refine h.withPending fun p hp => ?_
    cases hp
    exact ⟨Nat.one_le_iff_ne_zero.2 hlat, i, eq_encode_of_decode hdecode ▸ hdecode,
      (checkOf_clearPending i hb).trans hcheck⟩

theorem busAccess_inv (c : Cycle) {s : State} (h : EngineInv s) : ∃ t, busAccess c s = .next t ∧ EngineInv t := by
  have hbegin : EngineInv (s.beginEdge c) := h.congr h.target_le rfl rfl rfl rfl
  obtain ⟨t, ht, ⟨w, rfl⟩ | ⟨-, -, hw⟩⟩ := busAccess_next c s
  · exact ⟨_, ht, hbegin.congr h.target_le rfl rfl rfl rfl⟩
  · exact ⟨t, ht, hw.inv hbegin⟩

/-- An access never touches the command pending before the edge (R261). -/
theorem busAccess_pending {c : Cycle} {s t : State} {p : Pending} (hp : s.pending = some p)
    (ht : busAccess c s = .next t) : t.pending = some p := by
  obtain ⟨t', ht', he⟩ := busAccess_busy c (busy_of_pending hp)
  rw [ht] at ht'
  cases ht'
  rw [he]
  exact hp

/-- The engine's part of an edge: one cycle fewer is left, or the command completes with its checks still passing. -/
theorem engineTurn_inv (c : Cycle) {before s : State} (h : EngineInv s)
    (hkept : ∀ p, before.pending = some p → s.pending = some p) :
    ∃ t, engineTurn c before s = .next t ∧ EngineInv t := by
  cases hp : before.pending with
  | none => exact ⟨s, engineTurn_idle hp c s, h⟩
  | some p =>
    obtain ⟨hleft, i, hdecode, hcheck⟩ := h.pending_sound p (hkept p hp)
    by_cases hl : p.left ≤ 1
    · obtain ⟨e, he, -, -⟩ := completePending_next hdecode (busyEdgeError c before) s
      have hdone := effectOf_inv p.data h hcheck
      exact ⟨_, (engineTurn_completes hp hl c s).trans he, hdone.congr hdone.target_le rfl rfl rfl rfl⟩
    · refine ⟨_, engineTurn_waits hp (by omega) c s, h.withPending fun q hq => ?_⟩
      cases hq
      exact ⟨show 1 ≤ p.left - 1 by omega, i, hdecode, hcheck⟩

/-- From a state of the invariant every edge answers a next state, and the invariant holds there. -/
theorem clockEdge_inv (c : Cycle) {s : State} (h : EngineInv s) : ∃ t, clockEdge c s = .next t ∧ EngineInv t := by
  cases hr : c.rstN with
  | false => exact ⟨_, clockEdge_reset s hr, resetEdge_inv s c⟩
  | true =>
    obtain ⟨u, hu, hinv⟩ := busAccess_inv c h
    obtain ⟨t, ht, hinv'⟩ := engineTurn_inv c (before := s) hinv fun p hp => busAccess_pending hp hu
    exact ⟨t, (clockEdge_running hr hu).trans ht, hinv'⟩

/-- Every step is a clock edge: the one the pins to come name next, or else one without access. -/
theorem step_eq_clockEdge (s : State) :
    step s = clockEdge (s.inputs.headD (idleCycle s.lat)) { s with inputs := s.inputs.tail } := by
  match s with
  | { inputs := [], .. } => rfl
  | { inputs := _ :: _, .. } => rfl

theorem step_inv {s : State} (h : EngineInv s) : ∃ t, step s = .next t ∧ EngineInv t := by
  rw [step_eq_clockEdge]
  exact clockEdge_inv _ (h.congr h.target_le rfl rfl rfl rfl)

/-- Settles O48: the one next state of `step_inv`. -/
theorem everyStepKeepsTheInvariant : Obligations.EveryStepKeepsTheInvariant := by
  intro s t h ht
  obtain ⟨t', ht', hinv⟩ := step_inv h
  rw [ht] at ht'
  cases ht'
  exact hinv

theorem run_inv (n : Nat) {s : State} (h : EngineInv s) : ∃ t : State, Sys2Proof.core.run n s = .next t ∧ EngineInv t := by
  induction n generalizing s with
  | zero => exact ⟨s, rfl, h⟩
  | succ n ih =>
    obtain ⟨s', hs, h'⟩ := step_inv h
    rw [run_succ hs]
    exact ih h'

/-- Settles O50: the invariant, carried from reset along the run, says every line of R38. -/
theorem reachableIdleStatesMeetR38 : Obligations.ReachableIdleStatesMeetR38 := by
  intro inputs n
  have hstart : EngineInv { State.reset with inputs := inputs } :=
    resetMeetsTheInvariant.congr resetMeetsTheInvariant.target_le rfl rfl rfl rfl
  obtain ⟨t, ht, h⟩ := run_inv n hstart
  exact ⟨t, ht, fun _ => ⟨t.bufFill.isLt, t.msgLen.isLt, h.msgLen_bytes, h.target_le, h.fill_absorb,
    fun hp => congrArg Fin.val (h.fill_final hp)⟩⟩

/-! ## Writes and completions in one equation per case -/

theorem memWrite_refused {r : Reg} {v : Word} {s : State} {b : ErrBit} (h : writeCheck r v s = some b) :
    memWrite r v s = .next (s.raise b) := by
  simp [memWrite, h]

theorem memWrite_accepted {r : Reg} {v : Word} {s : State} (h : writeCheck r v s = none) :
    memWrite r v s = performWrite r v s := by
  simp [memWrite, h]

/-- The error bits a completion leaves (R160, R260): INIT clears them all, but perhaps the one the same edge has raised. -/
def completionErrors (i : Instr) (raised : Option ErrBit) (s : State) : Errors :=
  match i, raised with
  | .init, some b => if Config.errorOutlivesInit s.draws then Errors.none.set b else Errors.none
  | .init, none => Errors.none
  | .absorb _, _ | .compress, _ | .finalize, _ => s.err

/-- The completion of a legal command in one equation: its effect, nothing pending, and the error bits. -/
theorem completePending_legal {p : Pending} {i : Instr} (h : decode p.cmd = .ok i) (raised : Option ErrBit) (s : State) :
    completePending p raised s =
      .next { effectOf i p.data s with pending := none, err := completionErrors i raised s } := by
  obtain ⟨e, he, hkept, hquiet⟩ := completePending_next h raised s
  cases i with
  | init =>
    cases raised with
    | none => rw [he, hquiet rfl]; rfl
    | some b =>
      cases hf : Config.errorOutlivesInit s.draws <;>
        simp [completePending, h, effectOf, effectInit, completionErrors, hf, State.raise]
  | absorb n => rw [he, hkept nofun]; rfl
  | compress => rw [he, hkept nofun]; rfl
  | finalize => rw [he, hkept nofun]; rfl

theorem completionErrors_init_get {raised : Option ErrBit} {s : State} {b : ErrBit}
    (h : (completionErrors .init raised s).get b = true) : raised = some b := by
  cases raised with
  | none => simp [completionErrors] at h
  | some b' =>
    simp only [completionErrors] at h
    split_ifs at h
    · simpa using h
    · simp at h

/-! ## The internal registers (R32 to R34) -/

/-- `f` does not observe the internal registers: whatever they held, it answers the same state but for them. -/
def IgnoresDatapath (f : State → Host.Outcome State Fault Refusal) : Prop :=
  ∀ (s t : State) (d : Datapath), f s = .next t → ∃ d', f { s with dp := d } = .next { t with dp := d' }

theorem memRead_ignoresDatapath (r : Reg) (s : State) (d : Datapath) : memRead r { s with dp := d } = memRead r s := by
  cases r <;> rfl

theorem effectOf_ignoresDatapath (i : Instr) (data : Word) (s : State) (d : Datapath) :
    ∃ d', effectOf i data { s with dp := d } = { effectOf i data s with dp := d' } := by
  obtain ⟨hH, hbuf, hfill, hlen, hphase⟩ :=
    effectOf_sameHash i data (s := s) (t := { s with dp := d }) ⟨rfl, rfl, rfl, rfl, rfl⟩
  refine ⟨(effectOf i data { s with dp := d }).dp, ?_⟩
  ext1 <;> simp [hH, hbuf, hfill, hlen, hphase, effectOf_err]

theorem exec_ignoresDatapath (i : Instr) : IgnoresDatapath (exec i) := by
  intro s t d h
  have hsame : checkOf i { s with dp := d } = checkOf i s := checkOf_congr i rfl rfl rfl rfl
  obtain ⟨b, hc, he⟩ | ⟨hc, hl, he⟩ | ⟨hc, hl, he⟩ := exec_cases i s <;> rw [he] at h <;> cases h
  · exact ⟨d, exec_refused (hsame.trans hc)⟩
  · obtain ⟨d', hd⟩ := effectOf_ignoresDatapath i s.dataIn s d
    exact ⟨d', by rw [exec_completes (hsame.trans hc) hl, hd]⟩
  · exact ⟨d, exec_pends (hsame.trans hc) hl⟩

theorem issueWord_ignoresDatapath (v : Word) : IgnoresDatapath (issueWord v) := by
  intro s t d h
  cases hd : decode v with
  | error e =>
    rw [issueWord_illegal hd] at h
    cases h
    exact ⟨d, issueWord_illegal hd _⟩
  | ok i =>
    rw [issueWord_legal hd] at h ⊢
    exact exec_ignoresDatapath i s t d h

theorem writeCheck_ignoresDatapath (r : Reg) (v : Word) (s : State) (d : Datapath) :
    writeCheck r v { s with dp := d } = writeCheck r v s := by
  cases r <;> rfl

theorem performWrite_ignoresDatapath (r : Reg) (v : Word) : IgnoresDatapath (performWrite r v) := by
  intro s t d h
  cases r with
  | cmd => exact issueWord_ignoresDatapath v s t d h
  | dataIn | target | block _ | status | lzc | msglenLo | msglenHi | reserved | digest _ => cases h; exact ⟨d, rfl⟩

theorem memWrite_ignoresDatapath (r : Reg) (v : Word) : IgnoresDatapath (memWrite r v) := by
  intro s t d h
  have hsame := writeCheck_ignoresDatapath r v s d
  cases hc : writeCheck r v s with
  | some b =>
    rw [memWrite_refused hc] at h
    cases h
    exact ⟨d, memWrite_refused (hsame.trans hc)⟩
  | none =>
    rw [memWrite_accepted hc] at h
    rw [memWrite_accepted (hsame.trans hc)]
    exact performWrite_ignoresDatapath r v s t d h

theorem busAccess_ignoresDatapath (c : Cycle) : IgnoresDatapath (busAccess c) := by
  intro s t d h
  cases hs : c.sel with
  | false =>
    rw [busAccess_none s hs] at h
    cases h
    exact ⟨d, busAccess_none _ hs⟩
  | true =>
    cases hw : c.we with
    | false =>
      rw [busAccess_read s hs hw] at h
      cases h
      exact ⟨d, by rw [busAccess_read _ hs hw, memRead_ignoresDatapath]; rfl⟩
    | true =>
      rw [busAccess_write s hs hw] at h
      rw [busAccess_write _ hs hw]
      exact memWrite_ignoresDatapath _ _ _ t d h

theorem completePending_ignoresDatapath (p : Pending) (raised : Option ErrBit) :
    IgnoresDatapath (completePending p raised) := by
  intro s t d h
  cases hd : decode p.cmd with
  | error e =>
    rw [completePending_illegal hd] at h
    cases h
  | ok i =>
    obtain ⟨d', he⟩ := effectOf_ignoresDatapath i p.data s d
    rw [completePending_legal hd] at h ⊢
    cases h
    exact ⟨d', by rw [he]; rfl⟩

theorem engineTurn_ignoresDatapath (c : Cycle) (before : State) : IgnoresDatapath (engineTurn c before) := by
  intro s t d h
  cases hp : before.pending with
  | none =>
    rw [engineTurn_idle hp] at h ⊢
    cases h
    exact ⟨d, rfl⟩
  | some p =>
    by_cases hl : p.left ≤ 1
    · rw [engineTurn_completes hp hl] at h ⊢
      exact completePending_ignoresDatapath p _ s t d h
    · rw [engineTurn_waits hp (by omega)] at h ⊢
      cases h
      exact ⟨d, rfl⟩

theorem clockEdge_ignoresDatapath (c : Cycle) : IgnoresDatapath (clockEdge c) := by
  intro s t d h
  cases hr : c.rstN with
  | false =>
    rw [clockEdge_reset s hr] at h
    cases h
    exact ⟨Datapath.atReset, clockEdge_reset _ hr⟩
  | true =>
    obtain ⟨u, hu, he⟩ := clockEdge_running_inv hr h
    obtain ⟨d', hu'⟩ := busAccess_ignoresDatapath c s u d hu
    have hbefore : engineTurn c { s with dp := d } = engineTurn c s := rfl
    rw [clockEdge_running hr hu', hbefore]
    exact engineTurn_ignoresDatapath c s u t d' he

theorem step_ignoresDatapath : IgnoresDatapath step := by
  intro s t d h
  rw [step_eq_clockEdge] at h ⊢
  exact clockEdge_ignoresDatapath _ _ t d h

theorem run_ignoresDatapath (n : Nat) : IgnoresDatapath (Sys2Proof.core.run n) := by
  induction n with
  | zero =>
    intro s t d h
    cases h
    exact ⟨d, rfl⟩
  | succ n ih =>
    intro s t d h
    obtain ⟨s', hs, hr⟩ := run_succ_inv h
    obtain ⟨d', hs'⟩ := step_ignoresDatapath s s' d hs
    rw [run_succ hs']
    exact ih s' t d' hr

/-- Settles O51: no register's read and no operation of an edge looks at the internal registers. -/
theorem internalRegistersAreNeverObserved : Obligations.InternalRegistersAreNeverObserved :=
  fun s d n => ⟨fun r => memRead_ignoresDatapath r s d, fun t h => run_ignoresDatapath n s t d h⟩

/-! ## DATA_IN and TARGET (R26, R27) -/

/-- Settles O31, by the three answers of `exec_cases`. -/
theorem commandsKeepDataInAndTarget : Obligations.CommandsKeepDataInAndTarget := by
  intro i s
  obtain ⟨b, -, he⟩ | ⟨-, -, he⟩ | ⟨-, -, he⟩ := exec_cases i s
  · exact ⟨_, he, rfl, rfl, rfl, rfl, rfl, rfl⟩
  · exact ⟨_, he, effectOf_dataIn _ _ _, effectOf_target _ _ _, effectOf_inputs _ _ _, effectOf_lat _ _ _,
      effectOf_draws _ _ _, effectOf_rdata _ _ _⟩
  · exact ⟨_, he, rfl, rfl, rfl, rfl, rfl, rfl⟩

/-! ## The error bits (R28, R160, R229) -/

/-- CMD is the register at word offset 0 alone (R52). -/
theorem addr_of_regAt_cmd {a : BitVec 5} (h : regAt a = .cmd) : a = 0#5 := by
  revert a
  decide

/-- What a write's first check raises, and where (R222, R225). -/
theorem writeCheck_some {r : Reg} {v : Word} {s : State} {b : ErrBit} (h : writeCheck r v s = some b) :
    (b = .busy ∧ (r = .cmd ∨ ∃ k, r = .block k)) ∨ (b = .target ∧ r = .target ∧ 256 < v.toNat) := by
  cases r with
  | cmd =>
    obtain ⟨-, rfl⟩ : s.busy = true ∧ .busy = b := by simpa [writeCheck] using h
    exact .inl ⟨rfl, .inl rfl⟩
  | block k =>
    obtain ⟨-, rfl⟩ : s.busy = true ∧ .busy = b := by simpa [writeCheck] using h
    exact .inl ⟨rfl, .inr ⟨k, rfl⟩⟩
  | target =>
    obtain ⟨hv, rfl⟩ : 256 < v.toNat ∧ .target = b := by simpa [writeCheck] using h
    exact .inr ⟨rfl, rfl, hv⟩
  | dataIn | status | lzc | msglenLo | msglenHi | reserved | digest _ => cases h

theorem busyEdgeError_some {c : Cycle} {s : State} {b : ErrBit} (h : busyEdgeError c s = some b) :
    c.sel = true ∧ c.we = true ∧ writeCheck (regAt c.addr) c.wdata s = some b := by
  simpa [busyEdgeError, and_assoc] using h

/-- At the completion edge of a pending INIT a bit is set afterwards only if this edge's write was refused with it. -/
theorem step_completes_init {s : State} {c : Cycle} {rest : List Cycle} {p : Pending} (hin : s.inputs = c :: rest)
    (hr : c.rstN = true) (hp : s.pending = some p) (hl : p.left ≤ 1) (hd : decode p.cmd = .ok .init) :
    ∃ t, step s = .next t ∧ ∀ b, t.err.get b = true →
      c.sel = true ∧ c.we = true ∧
        ((b = .busy ∧ (regAt c.addr = .cmd ∨ ∃ k, regAt c.addr = .block k)) ∨
          (b = .target ∧ regAt c.addr = .target ∧ 256 < c.wdata.toNat)) := by
  rw [step_cons hin]
  obtain ⟨u, -, he⟩ := clockEdge_completes (s := { s with inputs := rest }) hr hp hl
  refine ⟨_, he.trans (completePending_legal hd _ u), fun b hb => ?_⟩
  obtain ⟨hs, hw, hcheck⟩ := busyEdgeError_some (completionErrors_init_get hb)
  exact ⟨hs, hw, writeCheck_some hcheck⟩

/-- A write keeps every error bit set, unless it is an INIT of latency 0. -/
theorem WriteResult.err_stays {r : Reg} {v : Word} {s t : State} {b : ErrBit} (h : WriteResult r v s t)
    (hb : s.err.get b = true)
    (hinit : ¬ (r = .cmd ∧ s.busy = false ∧ v = encode .init ∧ s.lat.of .init = 0)) : t.err.get b = true := by
  cases h with
  | refused b' => simp [hb]
  | completed i hcmd hidle hd _ hl =>
    have hi : i ≠ .init := by
      rintro rfl
      exact hinit ⟨hcmd, hidle, eq_encode_of_decode hd, hl⟩
    rw [effectOf_err, if_neg hi]
    exact hb
  | _ => exact hb

theorem busAccess_err_stays {c : Cycle} {s t : State} {b : ErrBit} (h : busAccess c s = .next t)
    (hb : s.err.get b = true)
    (hinit : ¬ (s.pending = none ∧ c.sel = true ∧ c.we = true ∧ c.addr = 0#5 ∧ c.wdata = 1#32 ∧ c.lat.init = 0)) :
    t.err.get b = true := by
  obtain ⟨t', ht, hcase⟩ := busAccess_next c s
  rw [h] at ht
  cases ht
  obtain ⟨w, rfl⟩ | ⟨hs, hw, hres⟩ := hcase
  · exact hb
  · refine hres.err_stays hb fun ⟨hcmd, hidle, hv, hl⟩ => hinit ?_
    exact ⟨(busy_eq_false_iff s).1 hidle, hs, hw, addr_of_regAt_cmd hcmd, hv, hl⟩

/-- An edge that is no reset and at which no INIT completes keeps every error bit set. -/
theorem clockEdge_err_stays {c : Cycle} {s t : State} {b : ErrBit} (hr : c.rstN = true) (h : clockEdge c s = .next t)
    (hb : s.err.get b = true) (hinit : ¬ InitCompletes c s) : t.err.get b = true := by
  obtain ⟨u, hu, he⟩ := clockEdge_running_inv hr h
  have hbu : u.err.get b = true := busAccess_err_stays hu hb fun hnow => hinit (.inr hnow)
  cases hp : s.pending with
  | none =>
    rw [engineTurn_idle hp] at he
    cases he
    exact hbu
  | some p =>
    by_cases hl : p.left ≤ 1
    · rw [engineTurn_completes hp hl] at he
      cases hd : decode p.cmd with
      | error e =>
        rw [completePending_illegal hd] at he
        cases he
      | ok i =>
        obtain ⟨e, hdone, hkept, -⟩ := completePending_next hd (busyEdgeError c s) u
        rw [hdone] at he
        cases he
        have hi : i ≠ .init := fun hi => hinit (.inl ⟨p, hp, hl, hi ▸ hd⟩)
        rw [hkept hi]
        exact hbu
    · rw [engineTurn_waits hp (by omega)] at he
      cases he
      exact hbu

/-- Settles O34: the bits clear at reset, at an INIT of latency 0 and at a pending INIT's completion, and stay otherwise. -/
theorem errorBitsStayUntilInitOrReset : Obligations.ErrorBitsStayUntilInitOrReset := by
  refine ⟨rfl, ?_, ?_, ?_, ?_⟩
  · intro s hb hl
    exact ⟨_, exec_completes (checkInit_passes hb) hl, rfl⟩
  · intro s c rest hin hr
    exact ⟨_, (step_cons hin).trans (clockEdge_reset _ hr), rfl⟩
  · intro s c rest p hin hr hp hl hd
    obtain ⟨t, ht, hbits⟩ := step_completes_init hin hr hp hl hd
    have hclear : ∀ b, b ≠ .busy → b ≠ .target → t.err.get b = false := fun b hbusy htarget =>
      Bool.eq_false_iff.2 fun hb => by
        obtain ⟨-, -, ⟨h, -⟩ | ⟨h, -⟩⟩ := hbits b hb
        · exact hbusy h
        · exact htarget h
    refine ⟨t, ht, hclear .illegal nofun nofun, hclear .seq nofun nofun, hclear .len nofun nofun, ?_, ?_⟩
    · intro hnone
      refine Bool.eq_false_iff.2 fun hb => hnone ?_
      obtain ⟨hs, hw, ⟨-, hreg⟩ | ⟨hne, -⟩⟩ := hbits .busy hb
      · exact ⟨hs, hw, hreg⟩
      · cases hne
    · intro hnone
      refine Bool.eq_false_iff.2 fun hb => hnone ?_
      obtain ⟨hs, hw, ⟨hne, -⟩ | ⟨-, hreg⟩⟩ := hbits .target hb
      · cases hne
      · exact ⟨hs, hw, hreg⟩
  · intro s c rest t b hin hr h hb hinit
    rw [step_cons hin] at h
    exact clockEdge_err_stays hr h hb hinit

end Sys2Proof.Machine

/-! # The registers and the bus (20_memory.md)

The register map, what a read returns and what a write does, the edges of an idle and of a busy engine, and an access in a
system of engines. -/

namespace Sys2Proof.Machine

/-! ## The register map (R52) -/

theorem regAt_addrOf (r : Reg) : regAt (addrOf r) = r := by
  cases r with
  | digest i => revert i; decide
  | block k => revert k; decide
  | cmd | status | dataIn | target | lzc | msglenLo | msglenHi | reserved => rfl

theorem addrOf_regAt (a : BitVec 5) : addrOf (regAt a) = a := by
  revert a
  decide

/-- Settles O5, by the two inverse laws of `regAt` and `addrOf`. -/
theorem registerOffsetsAreOneToOne : Obligations.RegisterOffsetsAreOneToOne := by
  refine ⟨rfl, rfl, rfl, rfl, rfl, rfl, rfl, rfl, ?_, ?_, regAt_addrOf, addrOf_regAt⟩
  · decide
  · decide

/-! ## The STATUS word (R61) -/

@[simp] theorem bitWord_getLsbD (b : Bool) (j : Nat) : (bitWord b).getLsbD j = (decide (j = 0) && b) := by
  cases b <;> cases j <;> simp [bitWord]

/-- `buf_fill` has six bits. -/
theorem bufFill_testBit_high (f : Fin 64) {j : Nat} (h : 6 ≤ j) : f.val.testBit j = false :=
  Nat.testBit_lt_two_pow (f.isLt.trans_le (Nat.pow_le_pow_right (by decide) h : 2 ^ 6 ≤ 2 ^ j))

/-- Bit `j` of the STATUS word is the bit of the one field that stands there, and 0 where none does. -/
theorem statusWord_getLsbD (s : State) {j : Nat} (hj : j < 32) :
    s.statusWord.getLsbD j =
      if j = 0 then s.busy else if j = 1 then s.digestValid else if j = 2 then s.meets
      else if j < 8 then false else if j < 14 then s.bufFill.val.testBit (j - 8) else if j < 16 then false
      else if j = 16 then s.err.illegal else if j = 17 then s.err.seq else if j = 18 then s.err.busy
      else if j = 19 then s.err.len else if j = 20 then s.err.target else false := by
  simp only [State.statusWord, BitVec.getLsbD_or, BitVec.getLsbD_shiftLeft, bitWord_getLsbD, BitVec.getLsbD_ofNat]
  interval_cases j <;> simp [bufFill_testBit_high]

/-- Bits that are all 0 make up a field that reads 0. -/
theorem extractLsb'_eq_zero {v : Word} {i n : Nat} (h : ∀ j, j < n → v.getLsbD (i + j) = false) :
    v.extractLsb' i n = 0#n := by
  apply BitVec.eq_of_getLsbD_eq
  intro j hj
  simp [hj, h j hj]

/-- BUF_FILL is bits 13:8 (R61). -/
theorem statusWord_bufFill (s : State) : (s.statusWord.extractLsb' 8 6).toNat = s.bufFill.val := by
  have hfield : s.statusWord.extractLsb' 8 6 = BitVec.ofNat 6 s.bufFill.val := by
    apply BitVec.eq_of_getLsbD_eq
    intro j hj
    rw [BitVec.getLsbD_extractLsb', statusWord_getLsbD s (by omega), BitVec.getLsbD_ofNat]
    simp [hj, show ¬ 8 + j = 1 by omega, show ¬ 8 + j = 2 by omega, show 8 + j < 14 by omega]
  rw [hfield, BitVec.toNat_ofNat, Nat.mod_eq_of_lt s.bufFill.isLt]

/-- Bits 7:3, 15:14 and 31:21 are reserved (R61). -/
theorem statusWord_reserved (s : State) {j : Nat} (h : (3 ≤ j ∧ j < 8) ∨ (14 ≤ j ∧ j < 16) ∨ (21 ≤ j ∧ j < 32)) :
    s.statusWord.getLsbD j = false := by
  rw [statusWord_getLsbD s (by omega)]
  obtain h | h | h := h <;> grind

/-- Settles O7, by `statusWord_getLsbD` for the one-bit fields, `statusWord_bufFill` and `statusWord_reserved`. -/
theorem statusFieldsArePlaced : Obligations.StatusFieldsArePlaced := by
  intro s
  have hbit (j : Nat) (hj : j < 32) := statusWord_getLsbD s hj
  refine ⟨hbit 0 (by decide), hbit 1 (by decide), hbit 2 (by decide), ?_, statusWord_bufFill s, ?_, hbit 16 (by decide),
    hbit 17 (by decide), hbit 18 (by decide), hbit 19 (by decide), hbit 20 (by decide), ?_⟩
  · exact extractLsb'_eq_zero fun j hj => statusWord_reserved s (by omega)
  · exact extractLsb'_eq_zero fun j hj => statusWord_reserved s (by omega)
  · exact extractLsb'_eq_zero fun j hj => statusWord_reserved s (by omega)

/-! ## Reads (R55, R57) -/

theorem ownedRead_idle {s : State} (h : s.busy = false) (a : BitVec 5) (v : Word) : s.ownedRead a v = v := by
  simp [State.ownedRead, h]

theorem ownedRead_busy {s : State} (h : s.busy = true) (a : BitVec 5) (v : Word) :
    s.ownedRead a v = Config.anyRead s.draws a := by
  simp [State.ownedRead, h]

theorem statusRead_idle {s : State} (h : s.busy = false) : s.statusRead = s.statusWord := by
  simp [State.statusRead, h]

theorem statusUnfixed_getLsbD (j : Fin 32) :
    statusUnfixed.getLsbD j.val = decide (j.val = 1 ∨ j.val = 2 ∨ (8 ≤ j.val ∧ j.val ≤ 13)) := by
  revert j
  decide

/-- A read of STATUS while busy, bit by bit (R57). -/
theorem statusRead_busy_getLsbD {s : State} (h : s.busy = true) (j : Fin 32) :
    s.statusRead.getLsbD j.val =
      if j.val = 1 ∨ j.val = 2 ∨ (8 ≤ j.val ∧ j.val ≤ 13) then (Config.anyRead s.draws (addrOf .status)).getLsbD j.val
      else s.statusWord.getLsbD j.val := by
  simp only [State.statusRead, h, if_true, BitVec.getLsbD_or, BitVec.getLsbD_and, BitVec.getLsbD_not, j.isLt,
    statusUnfixed_getLsbD]
  split_ifs with hopen <;> simp [hopen]

/-- While busy every register but CMD, STATUS, DATA_IN, TARGET and the reserved one reads any value. -/
theorem memRead_busy_owned {s : State} (h : s.busy = true) {r : Reg}
    (hr : r ∉ [Reg.cmd, .status, .dataIn, .target, .reserved]) : memRead r s = Config.anyRead s.draws (addrOf r) := by
  cases r with
  | cmd | status | dataIn | target | reserved => exact absurd (by simp) hr
  | lzc | msglenLo | msglenHi | digest _ | block _ => exact ownedRead_busy h _ _

theorem memRead_block_idle {s : State} (h : s.busy = false) (k : Fin 16) :
    memRead (.block k) s = blockWord s.buf k :=
  ownedRead_idle h _ _

theorem memRead_target_toNat (s : State) : (memRead .target s).toNat = s.target.toNat := by
  have := s.target.isLt
  simp only [memRead, BitVec.toNat_setWidth]
  omega

theorem clz8_le (x : Byte) : clz8 x ≤ 7 := Nat.sub_le _ _

/-- No byte counts more than its eight bits. -/
theorem leadingZeros_le (bs : List Byte) : leadingZeros bs ≤ 8 * bs.length := by
  induction bs with
  | nil => exact le_rfl
  | cons b bs ih =>
    have := clz8_le b
    simp only [leadingZeros, List.length_cons]
    split_ifs <;> omega

theorem lzc_le (H : Vector Word 8) : lzc H ≤ 256 := by
  have hlength : (digestBytes H).length = 32 := by simp [digestBytes]
  have hle := leadingZeros_le (digestBytes H)
  rwa [hlength] at hle

/-- LZC reads the count, which nine bits hold (R64). -/
theorem memRead_lzc_toNat {s : State} (h : s.busy = false) : (memRead .lzc s).toNat = lzc s.H := by
  have := lzc_le s.H
  rw [memRead, ownedRead_idle h, BitVec.toNat_ofNat]
  omega

/-- MSGLEN_HI and MSGLEN_LO are the two halves of `msg_len` (R65). -/
theorem memRead_msgLen {s : State} (h : s.busy = false) : memRead .msglenHi s ++ memRead .msglenLo s = s.msgLen := by
  rw [memRead, memRead, ownedRead_idle h, ownedRead_idle h]
  exact BitVec.extractLsb'_append_extractLsb'_eq_extractLsb' (w := 64) rfl |>.trans (by simp)

/-- Settles O6: the reads of an idle engine one by one, and `memRead_busy_owned`. -/
theorem readsReturnTheRegisters : Obligations.ReadsReturnTheRegisters := by
  intro s
  refine ⟨⟨rfl, rfl, memRead_target_toNat s, rfl⟩, fun h => ?_, fun h r _ hr => memRead_busy_owned h hr⟩
  exact ⟨statusRead_idle h, memRead_lzc_toNat h, memRead_msgLen h, fun i => ownedRead_idle h _ _,
    fun k => memRead_block_idle h k⟩

/-- Settles O8, by `statusRead_busy_getLsbD` and `memRead_busy_owned`. -/
theorem busyReadsFixOnlyTheExactFields : Obligations.BusyReadsFixOnlyTheExactFields := by
  intro s h
  have howned (r : Reg) (hr : r ∉ [Reg.cmd, .status, .dataIn, .target, .reserved]) := memRead_busy_owned h hr
  refine ⟨?_, statusRead_busy_getLsbD h, rfl, rfl, howned _ (by simp), howned _ (by simp), howned _ (by simp),
    fun i => howned _ (by simp), fun k => howned _ (by simp)⟩
  calc s.statusRead.getLsbD 0 = s.statusWord.getLsbD 0 := statusRead_busy_getLsbD h 0
    _ = s.busy := statusWord_getLsbD s (by decide)
    _ = true := h

/-! ## Writes (R56, R58, R60, R67, R69) -/

/-- Settles O10: the accepted and the refused write of each register, and the bytes `putBlockWord_get` says a BLOCKk write
stores. -/
theorem writesFollowTheRegisterMap : Obligations.WritesFollowTheRegisterMap := by
  intro s v
  refine ⟨memWrite_cmd_busy v, memWrite_cmd_idle v, memWrite_dataIn s v, memWrite_target_high,
    fun h => ⟨_, target_toNat h, memWrite_target_low h⟩,
    fun k => ⟨memWrite_block_busy k v, fun h => ⟨_, memWrite_block_idle k v h, ?_⟩⟩, ?_⟩
  · have hbyte (j : Nat) (hj : j < 4) : (putBlockWord s.buf k v)[4 * k.val + j] = byteOf v j := by
      rw [putBlockWord_get, if_pos (by omega)]
      congr 1
      omega
    refine ⟨hbyte 0 (by decide), hbyte 1 (by decide), hbyte 2 (by decide), hbyte 3 (by decide), fun j hj => ?_⟩
    exact (putBlockWord_get s.buf k v j.val j.isLt).trans (if_neg hj)
  · rintro r (rfl | rfl | rfl | rfl | rfl | ⟨i, rfl⟩) <;> rfl

/-- Settles O11, by `blockWord_putBlockWord`. -/
theorem blockWriteReadsBack : Obligations.BlockWriteReadsBack := by
  intro s k v h
  have hread (j : Fin 16) : memRead (.block j) { s with buf := putBlockWord s.buf k v } =
      if j = k then v else blockWord s.buf j :=
    (memRead_block_idle (s := { s with buf := putBlockWord s.buf k v }) h j).trans (blockWord_putBlockWord s.buf k j v)
  refine ⟨_, memWrite_block_idle k v h, ?_, fun j hj => ?_, rfl, rfl, rfl, rfl⟩
  · rw [hread, if_pos rfl]
  · rw [hread, if_neg hj, memRead_block_idle h]

/-- Settles O12: of the results a write can have, those that run a command are CMD's alone. -/
theorem onlyCmdWritesDoMoreThanStore : Obligations.OnlyCmdWritesDoMoreThanStore := by
  intro s r v hr
  obtain ⟨t, ht, hw⟩ := memWrite_next r v s
  refine ⟨t, ht, ?_⟩
  cases hw with
  | refused b => exact ⟨rfl, rfl, rfl, rfl, rfl, .inr rfl, .inr rfl, .inr rfl⟩
  | ignored => exact ⟨rfl, rfl, rfl, rfl, rfl, .inr rfl, .inr rfl, .inr rfl⟩
  | dataIn h => exact ⟨rfl, rfl, rfl, rfl, rfl, .inr rfl, .inl h, .inr rfl⟩
  | target w h _ _ => exact ⟨rfl, rfl, rfl, rfl, rfl, .inr rfl, .inr rfl, .inl h⟩
  | block k h _ => exact ⟨rfl, rfl, rfl, rfl, rfl, .inl ⟨k, h⟩, .inr rfl, .inr rfl⟩
  | completed i h _ _ _ _ => exact absurd h hr
  | pended i h _ _ _ _ => exact absurd h hr

theorem decode_encode {i : Instr} (h : i.wellFormed = true) : decode (encode i) = .ok i := by
  cases i with
  | absorb n => revert n; decide
  | init | compress | finalize => decide

/-- The one ill-formed term, an ABSORB of 0 or 5 to 7 bytes, encodes to an illegal word (R81). -/
theorem decode_encode_illFormed {i : Instr} (h : i.wellFormed = false) : decode (encode i) = .error .wrongNbytes := by
  cases i with
  | absorb n => revert n; decide
  | init | compress | finalize => cases h

theorem checkOf_illFormed {i : Instr} {s : State} (hb : s.busy = false) (h : i.wellFormed = false) :
    checkOf i s = some .illegal := by
  cases i with
  | absorb n => simp [checkOf, checkAbsorb, hb, h]
  | init | compress | finalize => cases h

/-- Settles O30: a busy engine refuses both alike, and an idle one runs the instruction its word decodes to or raises
ERR_ILLEGAL. -/
theorem meaningIsTheCommandWrite : Obligations.MeaningIsTheCommandWrite := by
  intro i s
  cases hb : s.busy with
  | true => rw [memWrite_cmd_busy _ hb, exec_refused (checkOf_busy hb i)]
  | false =>
    rw [memWrite_cmd_idle _ hb]
    cases hwf : i.wellFormed with
    | true => exact issueWord_legal (decode_encode hwf) s
    | false => rw [issueWord_illegal (decode_encode_illFormed hwf), exec_refused (checkOf_illFormed hb hwf)]

/-! ## The edge of a write (R51, R84) -/

theorem step_write_idle {s : State} {c : Cycle} {rest : List Cycle} (hin : s.inputs = c :: rest) (hr : c.rstN = true)
    (hs : c.sel = true) (hw : c.we = true) (hb : s.busy = false) :
    step s = memWrite (regAt c.addr) c.wdata (State.beginEdge { s with inputs := rest } c) := by
  have hp : s.pending = none := (busy_eq_false_iff s).1 hb
  rw [step_cons hin, clockEdge_idle (s := { s with inputs := rest }) hr hp, busAccess_write _ hs hw]

theorem step_command_idle {s : State} {c : Cycle} {rest : List Cycle} (hin : s.inputs = c :: rest) (hr : c.rstN = true)
    (hs : c.sel = true) (hw : c.we = true) (hb : s.busy = false) (ha : c.addr = 0#5) :
    step s = issueWord c.wdata (State.beginEdge { s with inputs := rest } c) := by
  rw [step_write_idle hin hr hs hw hb, ha]
  exact memWrite_cmd_idle _ hb

theorem decode_tableWord {nbits w : Nat} {i : Instr} (h : decodeTableWord nbits w = some i) :
    decode (tableWord nbits w) = .ok i := by
  unfold decodeTableWord at h
  split_ifs at h
  split at h
  · cases h; assumption
  · cases h

/-- Settles O37, by `step_command_idle`; `withFetchWord` puts a write to CMD at the head of the inputs. -/
theorem stepRunsTheDecodedCommand : Obligations.StepRunsTheDecodedCommand := by
  refine ⟨fun s c rest hin hr hs hw hb => ⟨step_write_idle hin hr hs hw hb, fun ha => ?_⟩, fun s nbits w i hd hb => ?_⟩
  · rw [step_command_idle hin hr hs hw hb ha]
    exact ⟨fun i hd => issueWord_legal hd _, fun e hd => issueWord_illegal hd _⟩
  · rw [step_command_idle (s := s.withFetchWord nbits w) rfl rfl rfl rfl hb rfl]
    exact issueWord_legal (decode_tableWord hd) _

/-! ## The edge of a read (R51, R58) -/

theorem memRead_inputs (r : Reg) (s : State) (l : List Cycle) : memRead r { s with inputs := l } = memRead r s := by
  cases r <;> rfl

/-- An effect neither reads the `rdata` port nor drives it. -/
theorem effectOf_withRdata (i : Instr) (data : Word) (s : State) (w : Word) :
    effectOf i data { s with rdata := w } = { effectOf i data s with rdata := w } := by
  have hsame : SameHash s { s with rdata := w } := ⟨rfl, rfl, rfl, rfl, rfl⟩
  obtain ⟨hH, hbuf, hfill, hlen, hphase⟩ := effectOf_sameHash i data hsame
  ext1 <;> simp [hH, hbuf, hfill, hlen, hphase, effectOf_err, effectOf_dp_congr i data hsame rfl rfl]

theorem completionErrors_withRdata (i : Instr) (raised : Option ErrBit) (s : State) (w : Word) :
    completionErrors i raised { s with rdata := w } = completionErrors i raised s := by
  cases i <;> cases raised <;> rfl

/-- The engine's part of an edge neither reads the `rdata` port nor drives it. -/
theorem engineTurn_withRdata {c : Cycle} {before s t : State} (h : engineTurn c before s = .next t) (w : Word) :
    engineTurn c before { s with rdata := w } = .next { t with rdata := w } := by
  cases hp : before.pending with
  | none =>
    rw [engineTurn_idle hp] at h ⊢
    cases h
    rfl
  | some p =>
    by_cases hl : p.left ≤ 1
    · rw [engineTurn_completes hp hl] at h ⊢
      cases hd : decode p.cmd with
      | error e =>
        rw [completePending_illegal hd] at h
        cases h
      | ok i =>
        rw [completePending_legal hd] at h ⊢
        cases h
        rw [effectOf_withRdata, completionErrors_withRdata]
    · rw [engineTurn_waits hp (by omega)] at h ⊢
      cases h
      rfl

/-- Of the pins the engine's part of an edge sees only what error the access raises. -/
theorem engineTurn_congr {c c' : Cycle} {before : State} (h : busyEdgeError c before = busyEdgeError c' before) (s : State) :
    engineTurn c before s = engineTurn c' before s := by
  simp only [engineTurn, h]

/-- A read drives `rdata` with the register's value before the edge, and the edge is otherwise one without access. -/
theorem clockEdge_read {c : Cycle} {s t : State} (hr : c.rstN = true) (hs : c.sel = true) (hw : c.we = false)
    (h : clockEdge { c with sel := false } s = .next t) :
    clockEdge c s = .next { t with rdata := memRead (regAt c.addr) s } := by
  rw [clockEdge_running (c := { c with sel := false }) hr (busAccess_none s rfl)] at h
  rw [clockEdge_running hr (busAccess_read s hs hw)]
  have hquiet : busyEdgeError { c with sel := false } s = busyEdgeError c s := by
    rw [busyEdgeError_quiet (by simp), busyEdgeError_quiet (by simp [hw])]
  rw [engineTurn_congr hquiet] at h
  exact engineTurn_withRdata h _

/-- Settles O9, by `clockEdge_read`; of an idle engine the edge without access changes nothing but what every edge sets. -/
theorem readsHaveNoSideEffect : Obligations.ReadsHaveNoSideEffect := by
  intro s c rest hr hs hw
  refine ⟨fun t ht => ?_, fun hb => ?_⟩
  · rw [step_with_inputs] at ht ⊢
    rw [clockEdge_read hr hs hw ht, memRead_inputs]
  · have hp : s.pending = none := (busy_eq_false_iff s).1 hb
    rw [step_with_inputs, clockEdge_idle (s := { s with inputs := rest }) hr hp, busAccess_read _ hs hw, memRead_inputs]
    rfl

/-! ## The edges of a busy engine (R54, R56, R261, R267) -/

/-- Settles O40: the access of a busy engine reaches none of these registers, and a waiting command only comes one edge
nearer. -/
theorem busyEdgesKeepTheEngineRegisters : Obligations.BusyEdgesKeepTheEngineRegisters := by
  intro s c rest p hin hr hp hl
  obtain ⟨u, hu, he⟩ := clockEdge_waits (s := { s with inputs := rest }) hr hp hl
  obtain ⟨u', hu', hkept⟩ := busAccess_busy (s := { s with inputs := rest }) c (busy_of_pending hp)
  rw [hu] at hu'
  cases hu'
  rw [step_cons hin]
  refine ⟨_, he, rfl, ?_⟩
  rw [hkept]
  exact ⟨rfl, rfl, rfl, rfl, rfl, rfl⟩

/-- The engine's part of a busy edge leaves DATA_IN, TARGET and the inputs as the access has left them, and the error bits too
unless an INIT completes (R26, R27, R230). -/
theorem engineTurn_keeps_access {c : Cycle} {before : State} {p : Pending} (hp : before.pending = some p)
    (hlegal : 1 < p.left ∨ ∃ i, decode p.cmd = .ok i) (s : State) :
    ∃ t, engineTurn c before s = .next t ∧ t.inputs = s.inputs ∧ t.dataIn = s.dataIn ∧ t.target = s.target ∧
      (¬ InitCompletes c before → t.err = s.err) := by
  by_cases hl : p.left ≤ 1
  · obtain ⟨i, hd⟩ := hlegal.resolve_left (by omega)
    obtain ⟨e, he, hkept, -⟩ := completePending_next hd (busyEdgeError c before) s
    refine ⟨_, (engineTurn_completes hp hl c s).trans he, effectOf_inputs _ _ _, effectOf_dataIn _ _ _,
      effectOf_target _ _ _, fun hinit => hkept ?_⟩
    rintro rfl
    exact hinit (.inl ⟨p, hp, hl, hd⟩)
  · exact ⟨_, engineTurn_waits hp (by omega) c s, rfl, rfl, rfl, fun _ => rfl⟩

/-- Settles O38: what the access of a busy engine writes, kept by the engine's part of the edge. -/
theorem busyEdgesTakeDataInAndTargetWrites : Obligations.BusyEdgesTakeDataInAndTargetWrites := by
  intro s c rest p hin hr hp hlegal
  obtain ⟨u, hu, hinputs, hdata, htarget, herr⟩ :=
    busAccess_busy_fields (s := { s with inputs := rest }) c (busy_of_pending hp)
  obtain ⟨t, ht, hinputs', hdata', htarget', herr'⟩ :=
    engineTurn_keeps_access (c := c) (before := { s with inputs := rest }) hp hlegal u
  refine ⟨t, ?_, hinputs'.trans hinputs, hdata'.trans hdata, ?_, fun hinit => (herr' hinit).trans herr⟩
  · rw [step_cons hin, clockEdge_running hr hu, ht]
  · rw [htarget', htarget]

/-! ## An access in a system (R52, R53, R241) -/

/-- An address selects the word offset `n` of an engine exactly when it is `ENGINE_BASE + 4·n`. -/
theorem select_eq_some_iff {e : Engine} {a : Nat} {n : BitVec 5} : e.select a = some n ↔ a = e.base + 4 * n.toNat := by
  have hn := n.isLt
  rw [Engine.select, Option.ite_none_right_eq_some, Option.some_inj, BitVec.toNat_eq, BitVec.toNat_ofNat]
  omega

/-- The address of a register of engine `k` is routed to it: no engine before it has a window that holds the address. -/
theorem route_eq {sys : System} (hwf : sys.wf) {k : Nat} (hk : k < sys.engines.length) (n : BitVec 5) :
    sys.route (sys.engines[k].base + 4 * n.toNat) = some (k, n) := by
  have hselect := select_eq_some_iff (e := sys.engines[k]) (n := n).2 rfl
  have hfind : sys.engines.findIdx (fun e => (e.select (sys.engines[k].base + 4 * n.toNat)).isSome) = k := by
    refine (List.findIdx_eq hk).2 ⟨by rw [hselect]; rfl, fun j hj => ?_⟩
    have happart := List.pairwise_iff_getElem.1 hwf j k (hj.trans hk) hk hj
    refine Bool.eq_false_iff.2 fun hsome => ?_
    obtain ⟨m, hm⟩ := Option.isSome_iff_exists.1 hsome
    have := select_eq_some_iff.1 hm
    have := m.isLt
    have := n.isLt
    omega
  simp [System.route, hfind, hselect, hk]

theorem route_eq_none {sys : System} {a : Nat} (h : ∀ e ∈ sys.engines, ∀ n : BitVec 5, a ≠ e.base + 4 * n.toNat) :
    sys.route a = none := by
  refine Option.bind_eq_none_iff.2 fun e he => ?_
  have hnone : e.select a = none :=
    Option.eq_none_iff_forall_ne_some.2 fun n hn => h e (List.mem_of_getElem? he) n (select_eq_some_iff.1 hn)
  rw [hnone]
  rfl

/-- Settles O56: the address is routed to its engine, whose edge answers by the invariant. -/
theorem systemAccessReachesTheAddressedEngine : Obligations.SystemAccessReachesTheAddressedEngine := by
  intro sys c hwf
  refine ⟨fun k e n he hinv => ?_, fun a ha => by rw [System.access, route_eq_none ha]⟩
  obtain ⟨hk, hbase⟩ := engineAt_base he
  obtain ⟨s, hs, -⟩ := clockEdge_inv { c with sel := true, addr := n } hinv
  have hstream : s.draws.stream = e.state.draws.stream := by rw [clockEdge_draws hs, draw_next_stream]
  obtain ⟨sys', hsys, hbases, hself, hothers⟩ := onEngine_next he hs hstream
  refine ⟨s, sys', hs, ?_, hself, hothers, wf_of_bases hbases hwf⟩
  rw [System.access, ← hbase, route_eq hwf hk]
  exact hsys

end Sys2Proof.Machine

/-! # Command words (30_encoding.md)

The words that decode, as the encodings of the well-formed commands, as the words `legal(v)` admits, and as the seven of R85. -/

namespace Sys2Proof.Machine

/-! ## Decoding and encoding (R80, R82) -/

theorem wellFormed_of_decode {v : Word} {i : Instr} (h : decode v = .ok i) : i.wellFormed = true := by
  obtain rfl := eq_encode_of_decode h
  cases hwf : i.wellFormed with
  | true => rfl
  | false => rw [decode_encode_illFormed hwf] at h; cases h

/-- Settles O3: a word decodes to no command but a well-formed one that it encodes, and every encoding of one decodes to it. -/
theorem decodeIsTheInverseOfEncode : Obligations.DecodeIsTheInverseOfEncode := by
  intro v i
  constructor
  · exact fun h => ⟨wellFormed_of_decode h, (eq_encode_of_decode h).symm⟩
  · rintro ⟨hwf, rfl⟩
    exact decode_encode hwf

/-- The words that decode are the encodings of the well-formed commands. -/
theorem exists_decode_iff {v : Word} : (∃ i, decode v = .ok i) ↔ ∃ i : Instr, i.wellFormed = true ∧ encode i = v :=
  exists_congr (decodeIsTheInverseOfEncode v)

/-! ## The seven legal words (R85) -/

/-- The seven well-formed commands in the order of R85. -/
def legalCommands : List Instr :=
  [.init, .absorb 1#3, .absorb 2#3, .absorb 3#3, .absorb 4#3, .compress, .finalize]

theorem mem_legalCommands_iff {i : Instr} : i ∈ legalCommands ↔ i.wellFormed = true := by
  cases i with
  | absorb n => revert n; decide
  | init | compress | finalize => decide

theorem map_encode_legalCommands :
    legalCommands.map encode =
      [0x00000001#32, 0x00000012#32, 0x00000022#32, 0x00000032#32, 0x00000042#32, 0x00000003#32, 0x00000004#32] := by
  decide

/-- Settles O1: the seven words are the encodings of the seven well-formed commands. -/
theorem legalWordsAreTheSeven : Obligations.LegalWordsAreTheSeven := by
  refine ⟨fun v => ?_, decode_encode (i := .init) rfl, decode_encode (i := .absorb 1#3) rfl,
    decode_encode (i := .absorb 2#3) rfl, decode_encode (i := .absorb 3#3) rfl, decode_encode (i := .absorb 4#3) rfl,
    decode_encode (i := .compress) rfl, decode_encode (i := .finalize) rfl⟩
  rw [exists_decode_iff, ← map_encode_legalCommands, List.mem_map]
  simp only [mem_legalCommands_iff]

/-! ## The legality test (R81) -/

/-- `legal(v)` on the fields of the word. -/
theorem legal_iff {v : Word} :
    legal v = true ↔ rsvdField v = 0#25 ∧
      ((opField v = 2#4 ∧ 1 ≤ (nbytesField v).toNat ∧ (nbytesField v).toNat ≤ 4) ∨
        ((opField v = 1#4 ∨ opField v = 3#4 ∨ opField v = 4#4) ∧ nbytesField v = 0#3)) := by
  simp only [legal, Bool.and_eq_true, Bool.or_eq_true, beq_iff_eq, decide_eq_true_eq, and_assoc, or_assoc]

theorem legal_encode (i : Instr) : legal (encode i) = i.wellFormed := by
  cases i with
  | absorb n => revert n; decide
  | init | compress | finalize => decide

/-- A legal word is the encoding of a well-formed command, the one its OP names. -/
theorem exists_encode_of_legal {v : Word} (h : legal v = true) : ∃ i : Instr, i.wellFormed = true ∧ encode i = v := by
  obtain ⟨hrsvd, ⟨hop, hn⟩ | ⟨hop | hop | hop, hn⟩⟩ := legal_iff.1 h
  · exact ⟨.absorb (nbytesField v), decide_eq_true hn, (eq_cmdWord hrsvd hop rfl).symm⟩
  · exact ⟨.init, rfl, (eq_cmdWord hrsvd hop hn).symm⟩
  · exact ⟨.compress, rfl, (eq_cmdWord hrsvd hop hn).symm⟩
  · exact ⟨.finalize, rfl, (eq_cmdWord hrsvd hop hn).symm⟩

theorem exists_decode_iff_legal {v : Word} : (∃ i, decode v = .ok i) ↔ legal v = true := by
  rw [exists_decode_iff]
  constructor
  · rintro ⟨i, hwf, rfl⟩
    rw [legal_encode, hwf]
  · exact exists_encode_of_legal

/-- A word that stands for no command, written to an idle engine's CMD, only sets ERR_ILLEGAL (R84, R221). -/
theorem memWrite_cmd_undecodable {v : Word} {s : State} (hv : ¬ ∃ i, decode v = .ok i) (hb : s.busy = false) :
    memWrite .cmd v s = .next (s.raise .illegal) := by
  rw [memWrite_cmd_idle v hb]
  cases hd : decode v with
  | ok i => exact absurd ⟨i, hd⟩ hv
  | error e => exact issueWord_illegal hd s

/-- Settles O2: the decoder accepts the legal words, and the write of any other raises ERR_ILLEGAL. -/
theorem legalityIsReadFromTheWordAlone : Obligations.LegalityIsReadFromTheWordAlone :=
  fun _ => ⟨exists_decode_iff_legal.trans legal_iff, fun hv _ hb => memWrite_cmd_undecodable hv hb⟩

/-! ## Sample words (R80, R82, R84) -/

/-- Settles O4: the four command words are encodings by the layout of `cmdWord`, and the reserved words are evaluated. -/
theorem sampleWordsDecode : Obligations.SampleWordsDecode :=
  ⟨decode_encode (i := .init) rfl, decode_encode (i := .absorb 3#3) rfl, decode_encode (i := .compress) rfl,
    decode_encode (i := .finalize) rfl, by decide, by decide, by decide, by decide⟩

end Sys2Proof.Machine

/-! # The word functions and the constants (40_functions.md)

Ch and Maj bit by bit, the four rotate and shift functions over cyclic rotation and division, and the two tables of constants
against the roots of the primes. -/

namespace Sys2Proof.Machine

/-! ## Ch and Maj (R104, R105) -/

theorem ch_getLsbD (x y z : Word) (i : Nat) :
    (ch x y z).getLsbD i = if x.getLsbD i then y.getLsbD i else z.getLsbD i := by
  simp only [ch, BitVec.getLsbD_xor, BitVec.getLsbD_and, BitVec.getLsbD_not]
  by_cases hi : i < 32
  · cases x.getLsbD i <;> simp [hi]
  · simp [BitVec.getLsbD_of_ge, Nat.le_of_not_lt hi]

/-- The truth table of one bit of Maj is that of the majority. -/
theorem maj_getLsbD (x y z : Word) (i : Nat) :
    (maj x y z).getLsbD i = decide (2 ≤ (x.getLsbD i).toNat + (y.getLsbD i).toNat + (z.getLsbD i).toNat) := by
  simp only [maj, BitVec.getLsbD_xor, BitVec.getLsbD_and]
  cases x.getLsbD i <;> cases y.getLsbD i <;> cases z.getLsbD i <;> rfl

theorem ch_allOnes (y z : Word) : ch 0xffffffff#32 y z = y := by
  refine BitVec.eq_of_getLsbD_eq fun i hi => ?_
  have hx : (0xffffffff#32).getLsbD i = true := by
    rw [show 0xffffffff#32 = BitVec.allOnes 32 from rfl, BitVec.getLsbD_allOnes, decide_eq_true hi]
  rw [ch_getLsbD, hx, if_pos rfl]

theorem ch_zero (y z : Word) : ch 0#32 y z = z := by
  refine BitVec.eq_of_getLsbD_eq fun i _ => ?_
  rw [ch_getLsbD, BitVec.getLsbD_zero, if_neg Bool.false_ne_true]

theorem maj_self (x z : Word) : maj x x z = x := by
  rw [maj, BitVec.xor_assoc, BitVec.xor_self, BitVec.xor_zero, BitVec.and_self]

theorem maj_comm_left (x y z : Word) : maj x y z = maj y x z := by
  rw [maj, maj, BitVec.and_comm x y, BitVec.xor_assoc, BitVec.xor_assoc, BitVec.xor_comm (x &&& z)]

theorem maj_comm_right (x y z : Word) : maj x y z = maj x z y := by
  rw [maj, maj, BitVec.and_comm y z, BitVec.xor_comm (x &&& y)]

/-- Settles O13: the corner cases follow from what Ch is bit by bit. -/
theorem chChoosesBitByBit : Obligations.ChChoosesBitByBit :=
  ⟨fun _ _ _ => rfl, ch_getLsbD, fun y z => ⟨ch_allOnes y z, ch_zero y z⟩, by decide⟩

/-- Settles O14: the majority bit by bit, and the symmetries by the algebra of the formula. -/
theorem majTakesTheMajorityOfEachBit : Obligations.MajTakesTheMajorityOfEachBit :=
  ⟨fun _ _ _ => rfl, maj_getLsbD, maj_self, fun x y z => ⟨maj_comm_left x y z, maj_comm_right x y z⟩, by decide⟩

/-! ## The rotate and shift functions (R106 to R109) -/

/-- `ROTR` of the model is the cyclic rotation, for the amounts R110 admits. -/
theorem rotr_eq_rotateRight (x : Word) {n : Nat} (hn : n < 32) : rotr x n = x.rotateRight n := by
  rw [rotr, BitVec.rotateRight_def, Nat.mod_eq_of_lt hn]

/-- `SHR` divides by a power of two. -/
theorem shr_eq_ofNat (x : Word) (n : Nat) : shr x n = BitVec.ofNat 32 (x.toNat / 2 ^ n) := by
  rw [shr, ← Nat.shiftRight_eq_div_pow, ← BitVec.toNat_ushiftRight, BitVec.ofNat_toNat, BitVec.setWidth_eq]

/-- Settles O15: the formulas by what `ROTR` and `SHR` are at each amount, the listed values by evaluation. -/
theorem sigmaFunctionsRotateAndShift : Obligations.SigmaFunctionsRotateAndShift := by
  refine ⟨fun x => ?_, by decide, by decide, by decide, by decide⟩
  simp only [bigSigma0, bigSigma1, smallSigma0, smallSigma1, rotr_eq_rotateRight, shr_eq_ofNat, Nat.reduceLT, and_self]

/-! ## The constants (R101, R102) -/

/-- The primes below `n`, in increasing order. -/
def primesBelow (n : Nat) : List Nat := (List.range n).filter fun q => decide q.Prime

/-- The first 32 fractional bits of the `k`-th root of `p`: the root times 2^32 rounded down, without its integer part. -/
def rootFraction (k p : Nat) : Nat := Nat.nthRoot k (p * 2 ^ (32 * k)) % 2 ^ 32

theorem primesBelow_succ (n : Nat) : primesBelow (n + 1) = primesBelow n ++ if n.Prime then [n] else [] := by
  by_cases hn : n.Prime <;> simp [primesBelow, List.range_succ, hn]

/-- The entry at place `i` is a prime with `i` primes below it. -/
theorem primesBelow_getElem (n : Nat) {i : Nat} (hi : i < (primesBelow n).length) :
    (primesBelow n)[i].Prime ∧ (primesBelow (primesBelow n)[i]).length = i := by
  induction n with
  | zero => exact absurd hi (Nat.not_lt_zero i)
  | succ n ih =>
    by_cases hn : n.Prime
    · have hsucc : primesBelow (n + 1) = primesBelow n ++ [n] := by rw [primesBelow_succ, if_pos hn]
      simp only [hsucc, List.length_append, List.length_singleton] at hi ⊢
      obtain hlt | rfl := Nat.lt_succ_iff_lt_or_eq.1 hi
      · rw [List.getElem_append_left hlt]
        exact ih hlt
      · rw [List.getElem_concat_length rfl]
        exact ⟨hn, rfl⟩
    · have hsucc : primesBelow (n + 1) = primesBelow n := by rw [primesBelow_succ, if_neg hn, List.append_nil]
      simp only [hsucc] at hi ⊢
      exact ih hi

/-- In a table of the root fractions of the primes in order, each word is that of the prime of its index, and the root
scaled by 2^32 lies between `r` and `r + 1`. -/
theorem exists_prime_root {k n m : Nat} {table : Vector Word m} (hk : k ≠ 0)
    (h : table.toList.map BitVec.toNat = (primesBelow n).map (rootFraction k)) (i : Fin m) :
    ∃ p r : Nat, p.Prime ∧ (primesBelow p).length = i.val ∧
      r ^ k ≤ p * 2 ^ (32 * k) ∧ p * 2 ^ (32 * k) < (r + 1) ^ k ∧ table[i].toNat = r % 2 ^ 32 := by
  have hlen : m = (primesBelow n).length := by simpa using congrArg List.length h
  have hi : i.val < (primesBelow n).length := hlen ▸ i.isLt
  obtain ⟨hprime, hcount⟩ := primesBelow_getElem n hi
  have hword : table[i].toNat = rootFraction k (primesBelow n)[i.val] := by
    simpa [hi] using congrArg (·[i.val]?) h
  exact ⟨_, _, hprime, hcount, Nat.pow_nthRoot_le_iff.2 (.inl hk), Nat.lt_pow_nthRoot_add_one hk _, hword⟩

/-- The IV is the square roots of the 8 primes below 20. -/
theorem iv_eq_rootFractions : iv.toList.map BitVec.toNat = (primesBelow 20).map (rootFraction 2) := by
  decide +kernel

/-- The round constants are the cube roots of the 64 primes below 312. -/
theorem kTable_eq_rootFractions : kTable.toList.map BitVec.toNat = (primesBelow 312).map (rootFraction 3) := by
  decide +kernel

/-- Settles O16, by the 64 cube roots against the table in one evaluation. -/
theorem roundConstantsAreCubeRootsOfPrimes : Obligations.RoundConstantsAreCubeRootsOfPrimes :=
  exists_prime_root (by decide) kTable_eq_rootFractions

/-- Settles O17, by the 8 square roots against the table in one evaluation. -/
theorem initializationVectorIsSquareRootsOfPrimes : Obligations.InitializationVectorIsSquareRootsOfPrimes :=
  ⟨rfl, exists_prime_root (by decide) iv_eq_rootFractions⟩

end Sys2Proof.Machine

/-! # The block compression (41_compression.md)

The schedule word by word, the working vector round by round, and the blocks whose compression the spec lists. -/

namespace Sys2Proof.Machine

/-! ## The message schedule (R131) -/

/-- The second loop leaves every word alone whose index it does not visit. -/
theorem scheduleTail_getElem_of_notMem (W : Vector Word 64) {t : Fin 64} {ts : List (Fin 64)} (ht : t ∉ ts) :
    (scheduleTail W ts)[t] = W[t] := by
  induction ts generalizing W with
  | nil => rfl
  | cons u us ih =>
    obtain ⟨hne, hus⟩ := not_or.1 (mt List.mem_cons.2 ht)
    calc (scheduleTail W (u :: us))[t] = (W.set u.val (scheduleWord W u))[t] := ih _ hus
      _ = W[t] := Vector.getElem_set_ne _ _ fun h => hne (Fin.ext h.symm)

/-- R132: a word of the recurrence reads only words before it. -/
theorem scheduleWord_congr {W W' : Vector Word 64} {t : Fin 64} (ht : 0 < t.val)
    (h : ∀ i : Fin 64, i < t → W[i] = W'[i]) : scheduleWord W t = scheduleWord W' t := by
  have hback (d : Nat) (hd : 0 < d) : W[t.val - d] = W'[t.val - d] := h ⟨t.val - d, by omega⟩ (Nat.sub_lt ht hd)
  simp only [scheduleWord, hback 2 (by decide), hback 7 (by decide), hback 15 (by decide), hback 16 (by decide)]

/-- Over increasing indices each word written is the recurrence of the finished schedule: no word it reads is written
after it. -/
theorem scheduleTail_getElem_of_mem (W : Vector Word 64) {t : Fin 64} {ts : List (Fin 64)} (hlt : ts.Pairwise (· < ·))
    (hpos : ∀ u ∈ ts, 0 < u.val) (ht : t ∈ ts) : (scheduleTail W ts)[t] = scheduleWord (scheduleTail W ts) t := by
  induction ts generalizing W with
  | nil => exact absurd ht List.not_mem_nil
  | cons u us ih =>
    obtain ⟨hu, hus⟩ := List.pairwise_cons.1 hlt
    obtain rfl | ht := List.mem_cons.1 ht
    · have hbefore (i : Fin 64) (hi : i < t) : W[i] = (scheduleTail W (t :: us))[i] :=
        (scheduleTail_getElem_of_notMem W fun hm => (List.mem_cons.1 hm).elim hi.ne fun hm => (hu i hm).not_gt hi).symm
      calc (scheduleTail W (t :: us))[t] = (W.set t.val (scheduleWord W t))[t] :=
            scheduleTail_getElem_of_notMem _ fun hm => (hu t hm).false
        _ = scheduleWord W t := Vector.getElem_set_self _
        _ = scheduleWord (scheduleTail W (t :: us)) t := scheduleWord_congr (hpos t List.mem_cons_self) hbefore
    · exact ih _ hus (fun v hv => hpos v (List.mem_cons_of_mem u hv)) ht

@[simp] theorem mem_indicesFrom {n : Nat} {t : Fin 64} : t ∈ indicesFrom n ↔ n ≤ t.val := by
  simp [indicesFrom]

theorem indicesFrom_pairwise_lt (n : Nat) : (indicesFrom n).Pairwise (· < ·) :=
  (List.pairwise_lt_finRange 64).filter _

/-- The first loop of R131. -/
theorem schedule_getElem_head (B : Vector Byte 64) {t : Fin 64} (h : t.val < 16) :
    (schedule B)[t] = blockWord B ⟨t.val, h⟩ := by
  have hnot : t ∉ indicesFrom 16 := by simpa using h
  rw [schedule, scheduleTail_getElem_of_notMem _ hnot]
  simp [scheduleHead, h]

/-- The second loop of R131, in terms of the finished schedule. -/
theorem schedule_getElem_tail (B : Vector Byte 64) {t : Fin 64} (h : 16 ≤ t.val) :
    (schedule B)[t] = scheduleWord (schedule B) t :=
  scheduleTail_getElem_of_mem _ (indicesFrom_pairwise_lt 16) (fun _ hu => Nat.zero_lt_of_lt (mem_indicesFrom.1 hu))
    (mem_indicesFrom.2 h)

/-- Settles O18, by the two loops word by word; the words of the example are evaluated. -/
theorem scheduleFollowsTheRecurrence : Obligations.ScheduleFollowsTheRecurrence :=
  ⟨fun B => ⟨fun t h => schedule_getElem_head (t := ⟨t, by omega⟩) B h,
      fun t h => schedule_getElem_tail (t := ⟨t, h.2⟩) B h.1⟩,
    by decide +kernel⟩

/-! ## The rounds (R140 to R145) -/

/-- The datapath after the first `n` of the 64 rounds. -/
def datapathAfter (dp : Datapath) (n : Nat) : Datapath := ((List.finRange 64).take n).foldl datapathRound dp

theorem datapathAfter_succ (dp : Datapath) (t : Fin 64) :
    datapathAfter dp (t + 1) = datapathRound (datapathAfter dp t) t := by
  simp [datapathAfter, List.take_add_one]

theorem datapathAfter_all (dp : Datapath) : datapathAfter dp 64 = datapathRun dp := by
  rw [datapathAfter, List.take_of_length_le (by simp), datapathRun]

/-- No round writes the schedule. -/
theorem foldl_datapathRound_sched (dp : Datapath) (ts : List (Fin 64)) : (ts.foldl datapathRound dp).sched = dp.sched := by
  induction ts generalizing dp with
  | nil => rfl
  | cons t ts ih => exact ih (datapathRound dp t)

/-- Round `t` on the working vector, with `K[t]` and the word `W[t]` the block's schedule has (R142 to R144). -/
theorem datapathAfter_load_work_succ (H : Vector Word 8) (B : Vector Byte 64) (t : Fin 64) :
    (datapathAfter (datapathLoad H B) (t + 1)).work =
      roundStep (datapathAfter (datapathLoad H B) t).work kTable[t] (schedule B)[t] := by
  have hsched : (datapathAfter (datapathLoad H B) t).sched = schedule B := foldl_datapathRound_sched _ _
  rw [datapathAfter_succ, datapathRound, hsched]

/-- The state after a compression is the state before it plus the working vector after 64 rounds (R145). -/
theorem compress_eq_accumulate (H : Vector Word 8) (B : Vector Byte 64) :
    compress H B = accumulate H (datapathAfter (datapathLoad H B) 64).work := by
  rw [datapathAfter_all, compress]

/-- Settles O19, by the working vector after each number of rounds. -/
theorem compressRunsTheSixtyFourRounds : Obligations.CompressRunsTheSixtyFourRounds := fun H B =>
  ⟨fun n => (datapathAfter (datapathLoad H B) n).work, rfl,
    fun t => ⟨_, _, rfl, rfl, datapathAfter_load_work_succ H B t⟩, compress_eq_accumulate H B⟩

/-! ## The known blocks (R146, R147) -/

/-- Settles O20, by evaluating the two corner blocks and the hash of "abc", a block each. -/
theorem compressGivesTheKnownBlocks : Obligations.CompressGivesTheKnownBlocks :=
  ⟨by decide +kernel, by decide +kernel, by decide +kernel⟩

end Sys2Proof.Machine

/-! # The commands (42_commands.md)

The padded message, the effect of each command on the block buffer, the digest that stays, and a host that hashes a message. -/

namespace Sys2Proof.Machine

/-! ## The padding of a whole message (R181, R182, R184) -/

@[simp] theorem lengthSuffix_length (L : Nat) : (lengthSuffix L).length = 8 := by
  simp [lengthSuffix]

/-- The padded message is the least number of whole blocks (R182). -/
theorem padMessage_length (M : List Byte) : (padMessage M).length = 64 * ((M.length + 8) / 64 + 1) := by
  simp only [padMessage, List.length_append, List.length_replicate, List.length_singleton,
    lengthSuffix_length, zeroBytes]
  omega

theorem message_isPrefix_padMessage (M : List Byte) : M <+: padMessage M := by
  simp [padMessage]

theorem padMessage_getElem?_marker (M : List Byte) : (padMessage M)[M.length]? = some 0x80#8 := by
  simp [padMessage]

theorem padMessage_getElem?_zero {M : List Byte} {i : Nat} (h : M.length < i) (h' : i + 8 < (padMessage M).length) :
    (padMessage M)[i]? = some 0x00#8 := by
  have hz : i - (M ++ [0x80#8]).length < zeroBytes M.length := by
    simp only [padMessage, List.length_append, List.length_replicate, lengthSuffix_length] at h'
    simp only [List.length_append, List.length_singleton] at h' ⊢
    omega
  rw [padMessage, List.append_assoc, List.getElem?_append_right (by simpa using h),
    List.getElem?_append_left (by simpa using hz), List.getElem?_replicate_of_lt hz]

theorem padMessage_getElem?_length (M : List Byte) {i : Nat} (h : i < 8) :
    (padMessage M)[(padMessage M).length - 8 + i]? = some (lengthByte (BitVec.ofNat 64 (8 * M.length)) i) := by
  have hl : (padMessage M).length - 8 = (M ++ [0x80#8] ++ List.replicate (zeroBytes M.length) 0x00#8).length := by
    rw [padMessage, List.length_append, lengthSuffix_length, Nat.add_sub_cancel]
  rw [hl, padMessage, List.getElem?_append_right (Nat.le_add_right _ _), Nat.add_sub_cancel_left]
  simp [lengthSuffix, h]

/-- Settles O54, by the lemma on each part of the padded message. -/
theorem paddingFillsTheLeastNumberOfBlocks : Obligations.PaddingFillsTheLeastNumberOfBlocks := fun M =>
  ⟨padMessage_length M, fun n h => by omega, by simp [padMessage],
    padMessage_getElem?_marker M, fun _ => padMessage_getElem?_zero, fun _ => padMessage_getElem?_length M⟩

/-! ## Bytes stored in the block buffer (R83, R165) -/

/-- The buffer with the bytes `bs` stored from place `f` on, as far as it reaches. -/
def storeBytes (buf : Vector Byte 64) (f : Nat) (bs : List Byte) : Vector Byte 64 :=
  Vector.ofFn fun i => if f ≤ i.val then bs.getD (i.val - f) buf[i] else buf[i]

theorem storeBytes_get (buf : Vector Byte 64) (f : Nat) (bs : List Byte) (i : Nat) (hi : i < 64) :
    (storeBytes buf f bs)[i] = if f ≤ i then bs.getD (i - f) buf[i] else buf[i] := by
  simp [storeBytes]

theorem storeBytes_get_of_not_mem {buf : Vector Byte 64} {f : Nat} {bs : List Byte} {i : Nat} (hi : i < 64)
    (h : i < f ∨ f + bs.length ≤ i) : (storeBytes buf f bs)[i] = buf[i] := by
  rw [storeBytes_get]
  split_ifs
  · exact List.getD_eq_default _ _ (by omega)
  · rfl

@[simp] theorem storeBytes_nil (buf : Vector Byte 64) (f : Nat) : storeBytes buf f [] = buf :=
  Vector.ext fun _ hi => storeBytes_get_of_not_mem hi (by simp; omega)

/-- Nothing is stored past the last place. -/
theorem storeBytes_end (buf : Vector Byte 64) (bs : List Byte) : storeBytes buf 64 bs = buf :=
  Vector.ext fun _ hi => storeBytes_get_of_not_mem hi (.inl hi)

theorem storeBytes_cons (buf : Vector Byte 64) (f : Fin 64) (b : Byte) (bs : List Byte) :
    storeBytes buf f (b :: bs) = storeBytes (buf.set f b) (f + 1) bs := by
  ext i hi : 1
  obtain h | h | h := Nat.lt_trichotomy i f.val
  · rw [storeBytes_get_of_not_mem hi (.inl h), storeBytes_get_of_not_mem hi (.inl (by omega)),
      Vector.getElem_set_ne _ _ (by omega)]
  · subst h
    simp [storeBytes_get]
  · obtain ⟨k, rfl⟩ := Nat.exists_eq_add_of_lt h
    rw [storeBytes_get, storeBytes_get, if_pos (by omega), if_pos (by omega), Vector.getElem_set_ne _ _ (by omega),
      show f.val + k + 1 - f.val = k + 1 by omega, show f.val + k + 1 - (f.val + 1) = k by omega, List.getD_cons_succ]

/-- Bytes that do not reach the 64th place are stored, and that is all (R165). -/
theorem absorbBytes_within {bs : List Byte} {s : State} (h : s.bufFill.val + bs.length < 64) :
    bs.foldl State.absorbByte s =
      { s with buf := storeBytes s.buf s.bufFill.val bs, bufFill := ⟨s.bufFill.val + bs.length, h⟩ } := by
  induction bs generalizing s with
  | nil => simp
  | cons b bs ih =>
    rw [List.length_cons] at h
    rw [List.foldl_cons, absorbByte_below b (by omega), ih (by simp only; omega), storeBytes_cons]
    simp only [List.length_cons, Nat.add_assoc, Nat.add_comm 1]

/-- Bytes that reach the 64th place fill the block, which is compressed once, and those left over begin the next (R165,
R166). -/
theorem absorbBytes_across {bs : List Byte} {s : State} (h : 64 ≤ s.bufFill.val + bs.length)
    (h' : s.bufFill.val + bs.length - 64 < 64) :
    bs.foldl State.absorbByte s =
      { s with
        H := compress s.H (storeBytes s.buf s.bufFill.val bs)
        buf := storeBytes (storeBytes s.buf s.bufFill.val bs) 0 (bs.drop (64 - s.bufFill.val))
        bufFill := ⟨s.bufFill.val + bs.length - 64, h'⟩, dp := Config.anyDatapath s.draws } := by
  have hlt := s.bufFill.isLt
  induction bs generalizing s with
  | nil => simp only [List.length_nil] at h; omega
  | cons b bs ih =>
    rw [List.length_cons] at h h'
    have hdrop : (b :: bs).drop (64 - s.bufFill.val) = bs.drop (64 - (s.bufFill.val + 1)) := by
      rw [show 64 - s.bufFill.val = 64 - (s.bufFill.val + 1) + 1 by omega, List.drop_succ_cons]
    rw [List.foldl_cons, storeBytes_cons, hdrop]
    by_cases hf : s.bufFill.val + 1 < 64
    · rw [absorbByte_below b hf, ih (by simp only; omega) (by simp only; omega) hf]
      simp only [List.length_cons, Nat.add_assoc, Nat.add_comm 1]
    · have hfull : s.bufFill.val + 1 = 64 := by omega
      rw [absorbByte_full b hf, absorbBytes_within (by simp; omega), hfull, storeBytes_end]
      simp
      omega

/-- Byte `j` of the DATA_IN word is the one at `31 - 8j : 24 - 8j` (R83). -/
theorem absorbedBytes_getD {n : BitVec 3} (data : Word) {j : Nat} (h : j < n.toNat) (b : Byte) :
    (absorbedBytes n data).getD j b = byteOf data j := by
  simp [absorbedBytes, h]

/-! ## INIT (R160, R161) -/

/-- An idle engine in phase ABSORB with an empty buffer and no error bit reads STATUS 0 (R61). -/
theorem statusRead_cleared {s : State} (hb : s.busy = false) (hp : s.phase = .absorb) (hf : s.bufFill = 0)
    (he : s.err = Errors.none) : s.statusRead = 0#32 := by
  have hv : s.digestValid = false := by simp [State.digestValid, hp]
  rw [statusRead_idle hb]
  simp [State.statusWord, State.meets, hb, hv, hf, he, Errors.none, bitWord]

theorem lzc_iv : lzc iv = 1 := by decide

/-- Settles O21: the effect of INIT at latency 0, and the command pending otherwise. -/
theorem initReinitialises : Obligations.InitReinitialises := by
  intro s hb
  have hcheck : checkOf .init s = none := checkInit_passes hb
  refine ⟨fun hl => ⟨_, exec_completes hcheck hl, rfl, statusRead_cleared hb rfl rfl rfl, ?_⟩, exec_pends hcheck⟩
  exact (ownedRead_idle (s := effectInit s) hb _ _).trans (congrArg (BitVec.ofNat 32) lzc_iv)

/-! ## ABSORB (R165, R166) -/

/-- Settles O22, by `absorbBytes_within`. -/
theorem absorbAppendsWithinTheBlock : Obligations.AbsorbAppendsWithinTheBlock := by
  intro s n hb h1 h4 hp hlen hlat hfill
  have heff := absorbBytes_within (bs := absorbedBytes n s.dataIn) (by simpa using hfill)
  refine ⟨_, exec_completes (checkAbsorb_passes hb h1 h4 hp hlen) hlat, ?_, ?_, msgLen_add hlen, fun j hj hjn => ?_,
    fun i hi => ?_⟩ <;> simp only [effectOf, effectAbsorb, heff]
  · rw [absorbedBytes_length]
  · rw [storeBytes_get, if_pos (Nat.le_add_right _ _), Nat.add_sub_cancel_left, absorbedBytes_getD _ hjn, byteOf]
  · exact storeBytes_get_of_not_mem i.isLt (by rwa [absorbedBytes_length])

/-- Settles O23, by `absorbBytes_across`. -/
theorem absorbCompressesAFilledBlock : Obligations.AbsorbCompressesAFilledBlock := by
  intro s n hb h1 h4 hp hlen hlat hfill
  have hlt := s.bufFill.isLt
  have heff := absorbBytes_across (bs := absorbedBytes n s.dataIn) (s := s) (by simpa using hfill) (by simp; omega)
  refine ⟨_, storeBytes s.buf s.bufFill.val (absorbedBytes n s.dataIn),
    exec_completes (checkAbsorb_passes hb h1 h4 hp hlen) hlat, fun i => ?_, ?_, ?_, msgLen_add hlen, fun i => ?_⟩
  · have hi := i.isLt
    rw [Fin.getElem_fin, storeBytes_get]
    split_ifs
    · omega
    · rw [absorbedBytes_getD _ (by omega), byteOf]
    · rfl
    · omega
  all_goals simp only [effectOf, effectAbsorb, heff]
  · rw [absorbedBytes_length]
  · split_ifs with hi
    · rw [Fin.getElem_fin, storeBytes_get, if_pos (Nat.zero_le _), List.getD_eq_getElem?_getD, List.getElem?_drop,
        ← List.getD_eq_getElem?_getD, Nat.sub_zero, absorbedBytes_getD _ (by omega), byteOf]
    · exact storeBytes_get_of_not_mem i.isLt (.inr (by simp; omega))

/-! ## COMPRESS (R175, R176) -/

/-- Settles O24: the fields of `effectCompress`, and in phase ABSORB no digest is valid. -/
theorem compressTakesTheRawBlock : Obligations.CompressTakesTheRawBlock := by
  intro s hb hp hf hlen hlat
  have hvalid : (effectCompress s).digestValid = false := by simp [State.digestValid, hp]
  exact ⟨_, exec_completes (checkCompress_passes hb hp hf hlen) hlat, rfl, msgLen_add hlen, hvalid,
    by simp [effectOf, State.meets, hvalid]⟩

theorem absorbByte_withMsgLen (s : State) (m : BitVec 64) (b : Byte) :
    State.absorbByte { s with msgLen := m } b = { s.absorbByte b with msgLen := m } := by
  by_cases h : s.bufFill.val + 1 < 64
  · rw [absorbByte_below b h]
    exact absorbByte_below (s := { s with msgLen := m }) b h
  · rw [absorbByte_full b h]
    exact absorbByte_full (s := { s with msgLen := m }) b h

theorem absorbBytes_withMsgLen (bs : List Byte) (s : State) (m : BitVec 64) :
    bs.foldl State.absorbByte { s with msgLen := m } = { bs.foldl State.absorbByte s with msgLen := m } := by
  induction bs generalizing s with
  | nil => rfl
  | cons b bs ih => rw [List.foldl_cons, absorbByte_withMsgLen, ih, List.foldl_cons]

/-- Absorbing words one after another absorbs their bytes in one go and counts them all. -/
theorem effectAbsorb_words (n : BitVec 3) (ws : List Word) (s : State) :
    ws.foldl (fun u w => effectAbsorb n w u) s =
      { (ws.flatMap (absorbedBytes n)).foldl State.absorbByte s with
        msgLen := s.msgLen + BitVec.ofNat 64 (8 * n.toNat * ws.length) } := by
  induction ws generalizing s with
  | nil => simp
  | cons w ws ih =>
    rw [List.foldl_cons, ih, effectAbsorb, absorbBytes_withMsgLen, List.flatMap_cons, List.foldl_append,
      List.length_cons, Nat.mul_succ, Nat.add_comm, BitVec.ofNat_add, BitVec.add_assoc]

theorem byteOf_be32 (b0 b1 b2 b3 : Byte) :
    byteOf (be32 b0 b1 b2 b3) 0 = b0 ∧ byteOf (be32 b0 b1 b2 b3) 1 = b1 ∧ byteOf (be32 b0 b1 b2 b3) 2 = b2 ∧
      byteOf (be32 b0 b1 b2 b3) 3 = b3 := by
  refine ⟨?_, ?_, ?_, ?_⟩ <;> ext j hj <;>
    simp only [byteOf, be32, BitVec.getElem_extractLsb', BitVec.getLsbD_append] <;> grind

theorem absorbedBytes_blockWord (B : Vector Byte 64) (k : Fin 16) :
    absorbedBytes 4#3 (blockWord B k) = List.ofFn fun j : Fin 4 => B[4 * k.val + j.val] := by
  simp [absorbedBytes, List.range_succ, blockWord, byteOf_be32]

/-- The sixteen words of a block, read in order, hold its bytes in order (R67, R83). -/
theorem absorbedBytes_blockWords (B : Vector Byte 64) :
    ((List.finRange 16).map (blockWord B)).flatMap (absorbedBytes 4#3) = B.toList := by
  calc ((List.finRange 16).map (blockWord B)).flatMap (absorbedBytes 4#3)
      = (List.ofFn fun k : Fin 16 => List.ofFn fun j : Fin 4 => B[4 * k.val + j.val]).flatten := by
        rw [List.flatMap, List.map_map, List.ofFn_eq_map]
        simp only [Function.comp_def, absorbedBytes_blockWord]
    _ = List.ofFn fun i : Fin (4 * 16) => B[i] := (List.ofFn_mul' fun i : Fin (4 * 16) => B[i]).symm
    _ = B.toList := by
        apply List.ext_getElem
        · rw [List.length_ofFn, Vector.length_toList]
        · intro i _ _
          rw [List.getElem_ofFn, Vector.getElem_toList]
          rfl

/-- Settles O25: the sixteen ABSORBs store the buffer's own bytes over it, and the last of them fills the block. -/
theorem compressIsAbsorbingTheWholeBlock : Obligations.CompressIsAbsorbingTheWholeBlock := by
  intro s hb hp hf hlen hlat
  refine ⟨_, exec_completes (checkCompress_passes hb hp hf hlen) hlat, ?_⟩
  have hwords : (List.finRange 16).foldl (fun u k => effectAbsorb 4#3 (memRead (.block k) s) u) s =
      { s.buf.toList.foldl State.absorbByte s with msgLen := s.msgLen + 512#64 } := by
    simp only [memRead_block_idle hb]
    rw [← absorbedBytes_blockWords s.buf,
      ← List.foldl_map (f := blockWord s.buf) (g := fun u w => effectAbsorb 4#3 w u),
      effectAbsorb_words]
    simp
  have hsame : storeBytes s.buf 0 s.buf.toList = s.buf := by
    ext i hi : 1
    simp [storeBytes_get, hi]
  have hbytes := absorbBytes_across (bs := s.buf.toList) (s := s) (by simp [hf]) (by simp [hf])
  have hrest : s.buf.toList.drop 64 = [] := List.drop_eq_nil_of_le (by simp)
  simp [hwords, hbytes, hf, hsame, effectOf, hp, hrest]

/-! ## FINALIZE (R180 to R184) -/

/-- Settles O26, by `effectFinalize_one`. -/
theorem finalizePadsIntoOneBlock : Obligations.FinalizePadsIntoOneBlock := by
  intro s hb hp hlat hfill
  refine ⟨_, (exec_completes (checkFinalize_passes hb hp) hlat).trans (congrArg _ (effectFinalize_one hfill)), rfl, rfl,
    fun i => ?_⟩
  rw [Fin.getElem_fin, putLength_get, padTail_get]
  by_cases hlen : 56 ≤ i.val
  · rw [if_pos hlen, if_neg (by omega), if_neg (by omega), if_neg (by omega), lengthByte]
  · rw [if_neg hlen, if_pos (not_le.1 hlen)]
    rfl

/-- Settles O27, by `effectFinalize_two`. -/
theorem finalizePadsIntoTwoBlocks : Obligations.FinalizePadsIntoTwoBlocks := by
  intro s hb hp hlat hfill
  refine ⟨_, _, (exec_completes (checkFinalize_passes hb hp) hlat).trans (congrArg _ (effectFinalize_two hfill)),
    fun i => padTail_get _ _ _ _, rfl, rfl, fun i => ?_⟩
  rw [Fin.getElem_fin, putLength_get]
  by_cases hlen : 56 ≤ i.val
  · rw [if_pos hlen, if_neg (not_lt.2 hlen), lengthByte]
  · rw [if_neg hlen, if_pos (not_le.1 hlen), Vector.getElem_replicate]

/-! ## The digest stays (R192, R223) -/

theorem exec_absorb_final {n : BitVec 3} {s : State} (hb : s.busy = false) (hp : s.phase = .final) (h1 : 1 ≤ n.toNat)
    (h4 : n.toNat ≤ 4) : exec (.absorb n) s = .next (s.raise .seq) :=
  exec_refused (by simp [checkOf, checkAbsorb, hb, hp, Instr.wellFormed, h1, h4])

theorem exec_compress_final {s : State} (hb : s.busy = false) (hp : s.phase = .final) :
    exec .compress s = .next (s.raise .seq) :=
  exec_refused (by simp [checkOf, checkCompress, hb, hp])

theorem exec_finalize_final {s : State} (hb : s.busy = false) (hp : s.phase = .final) :
    exec .finalize s = .next (s.raise .seq) :=
  exec_refused (by simp [checkOf, checkFinalize, hb, hp])

/-- INIT is the one command accepted in phase FINAL (R25, R223). -/
theorem init_of_accepted_final {i : Instr} {s : State} (hp : s.phase = .final) (h : checkOf i s = none) :
    i = .init := by
  cases i with
  | init => rfl
  | absorb n => cases (checkAbsorb_none h).1.symm.trans hp
  | compress => cases (checkCompress_none h).1.symm.trans hp
  | finalize =>
    simp only [checkOf, checkFinalize, hp] at h
    split_ifs at h

/-- A write in phase FINAL that is no INIT of latency 0 keeps the digest. -/
theorem WriteResult.keeps_digest {r : Reg} {v : Word} {s t : State} (h : WriteResult r v s t) (hp : s.phase = .final)
    (hinit : ¬ (r = .cmd ∧ s.busy = false ∧ v = encode .init ∧ s.lat.of .init = 0)) :
    t.H = s.H ∧ t.phase = .final ∧ t.msgLen = s.msgLen := by
  cases h with
  | completed i hcmd hidle hd hcheck hl =>
    obtain rfl := init_of_accepted_final hp hcheck
    exact absurd ⟨hcmd, hidle, eq_encode_of_decode hd, hl⟩ hinit
  | _ => exact ⟨rfl, hp, rfl⟩

theorem busAccess_keeps_digest {c : Cycle} {s t : State} (h : busAccess c s = .next t) (hp : s.phase = .final)
    (hinit : ¬ InitCompletes c s) : t.H = s.H ∧ t.phase = .final ∧ t.msgLen = s.msgLen := by
  obtain ⟨t', ht, hcase⟩ := busAccess_next c s
  rw [h] at ht
  cases ht
  obtain ⟨w, rfl⟩ | ⟨hs, hw, hres⟩ := hcase
  · exact ⟨rfl, hp, rfl⟩
  · refine hres.keeps_digest hp fun ⟨hcmd, hidle, hv, hl⟩ => hinit (.inr ?_)
    exact ⟨(busy_eq_false_iff s).1 hidle, hs, hw, addr_of_regAt_cmd hcmd, hv, hl⟩

/-- What is pending in phase FINAL is an INIT. -/
theorem EngineInv.pending_final {s : State} {p : Pending} (h : EngineInv s) (hphase : s.phase = .final)
    (hp : s.pending = some p) : decode p.cmd = .ok .init := by
  obtain ⟨-, i, hd, hcheck⟩ := h.pending_sound p hp
  rw [hd, init_of_accepted_final (s := { s with pending := none }) hphase hcheck]

theorem clockEdge_keeps_digest {c : Cycle} {s t : State} (hr : c.rstN = true) (h : clockEdge c s = .next t)
    (hinv : EngineInv s) (hphase : s.phase = .final) (hinit : ¬ InitCompletes c s) :
    t.H = s.H ∧ t.phase = .final ∧ t.msgLen = s.msgLen := by
  obtain ⟨u, hu, he⟩ := clockEdge_running_inv hr h
  have hkept := busAccess_keeps_digest hu hphase hinit
  cases hp : s.pending with
  | none =>
    rw [engineTurn_idle hp] at he
    cases he
    exact hkept
  | some p =>
    have hl : 1 < p.left := not_le.1 fun hl => hinit (.inl ⟨p, hp, hl, hinv.pending_final hphase hp⟩)
    rw [engineTurn_waits hp hl] at he
    cases he
    exact hkept

/-- An INIT that completes at an edge leaves a new, empty hash, whatever state it found (R160). -/
theorem clockEdge_init {c : Cycle} {s : State} (hr : c.rstN = true) (h : InitCompletes c s) :
    ∃ t, clockEdge c s = .next t ∧ t.H = iv ∧ t.phase = .absorb ∧ t.msgLen = 0#64 := by
  obtain ⟨p, hp, hl, hd⟩ | ⟨hp, hs, hw, ha, hv, hl⟩ := h
  · obtain ⟨u, -, he⟩ := clockEdge_completes hr hp hl
    exact ⟨_, he.trans (completePending_legal hd _ u), rfl, rfl, rfl⟩
  · have hb : (s.beginEdge c).busy = false := (busy_eq_false_iff _).2 hp
    refine ⟨effectInit (s.beginEdge c), ?_, rfl, rfl, rfl⟩
    rw [clockEdge_idle hr hp, busAccess_write s hs hw, ha, hv]
    calc memWrite .cmd 1#32 (s.beginEdge c)
        = issueWord (encode .init) (s.beginEdge c) := memWrite_cmd_idle _ hb
      _ = exec .init (s.beginEdge c) := issueWord_legal (decode_encode rfl) _
      _ = .next (effectInit (s.beginEdge c)) := exec_completes (checkInit_passes hb) hl

/-- Settles O36, by `clockEdge_keeps_digest` and `clockEdge_init`. -/
theorem digestStaysUntilInitOrReset : Obligations.DigestStaysUntilInitOrReset := by
  refine ⟨fun s hb hp => ⟨fun n => exec_absorb_final hb hp, exec_compress_final hb hp, exec_finalize_final hb hp⟩, ?_⟩
  intro s c rest hinv hphase hin hr
  obtain ⟨t, ht, -⟩ := step_inv hinv
  have hedge := (step_cons hin).symm.trans ht
  refine ⟨t, ht, fun hinit => ?_, fun hinit => ?_⟩
  · exact clockEdge_keeps_digest (s := { s with inputs := rest }) hr hedge
      (hinv.congr hinv.target_le rfl rfl rfl rfl) hphase hinit
  · obtain ⟨t', ht', hnew⟩ := clockEdge_init (s := { s with inputs := rest }) hr hinit
    rw [hedge] at ht'
    cases ht'
    exact hnew

/-! ## The message the hash registers hold (R165, R181, R190) -/

theorem getD_of_isPrefix {M N : List Byte} (h : M <+: N) {i : Nat} (hi : i < M.length) :
    N.getD i 0x00#8 = M.getD i 0x00#8 := by
  obtain ⟨T, rfl⟩ := h
  exact List.getD_append M T _ i hi

/-- A byte string's whole blocks are the first blocks of every string it begins. -/
theorem compressBlocks_of_isPrefix {M N : List Byte} (h : M <+: N) (H : Vector Word 8) {n : Nat}
    (hn : 64 * n ≤ M.length) : compressBlocks H N n = compressBlocks H M n :=
  compressBlocks_congr n fun _ hi => getD_of_isPrefix h (by omega)

theorem blockOf_get_of_isPrefix {M N : List Byte} (h : M <+: N) {k i : Nat} (hi : i < 64) (hk : 64 * k + i < M.length) :
    (blockOf N k)[i] = (blockOf M k)[i] := by
  rw [blockOf_get, blockOf_get, getD_of_isPrefix h hk]

theorem blockOf_get_of_some {bytes : List Byte} {k i : Nat} {b : Byte} (hi : i < 64)
    (h : bytes[64 * k + i]? = some b) : (blockOf bytes k)[i] = b := by
  rw [blockOf_get, List.getD_eq_getElem?_getD, h, Option.getD_some]

/-- The message absorbed since INIT is `M`: its whole blocks are compressed, and the rest of it begins the buffer. -/
structure HoldsMessage (M : List Byte) (s : State) : Prop where
  H_eq : s.H = compressBlocks iv M (M.length / 64)
  fill_eq : s.bufFill.val = M.length % 64
  buf_eq : ∀ (i : Nat) (hi : i < 64), i < s.bufFill.val → s.buf[i] = (blockOf M (M.length / 64))[i]

/-- One byte stored goes on the message's last block. -/
theorem HoldsMessage.set_get {M : List Byte} {s : State} (h : HoldsMessage M s) (b : Byte) {i : Nat} (hi : i < 64)
    (hle : i ≤ s.bufFill.val) : (s.buf.set s.bufFill.val b)[i] = (blockOf (M ++ [b]) (M.length / 64))[i] := by
  have hfill := h.fill_eq
  obtain hlt | rfl := Nat.lt_or_eq_of_le hle
  · rw [Vector.getElem_set_ne _ _ (by omega), h.buf_eq i hi hlt,
      blockOf_get_of_isPrefix ⟨[b], rfl⟩ hi (by omega)]
  · rw [Vector.getElem_set_self, blockOf_get_of_some hi]
    rw [show 64 * (M.length / 64) + s.bufFill.val = M.length by omega, List.getElem?_concat_length]

theorem HoldsMessage.absorbByte {M : List Byte} {s : State} (h : HoldsMessage M s) (b : Byte) :
    HoldsMessage (M ++ [b]) (s.absorbByte b) := by
  have hfill := h.fill_eq
  have hlen : (M ++ [b]).length = M.length + 1 := List.length_append
  have hwhole : compressBlocks iv (M ++ [b]) (M.length / 64) = s.H := by
    rw [compressBlocks_of_isPrefix ⟨[b], rfl⟩ iv (by omega), h.H_eq]
  by_cases hf : s.bufFill.val + 1 < 64
  · have hq : (M ++ [b]).length / 64 = M.length / 64 := by omega
    rw [absorbByte_below b hf]
    refine ⟨by rw [hq, hwhole], by simp only; omega, fun i hi hlt => ?_⟩
    rw [hq]
    exact h.set_get b hi (Nat.le_of_lt_succ hlt)
  · have hq : (M ++ [b]).length / 64 = M.length / 64 + 1 := by omega
    have hblock : s.buf.set s.bufFill.val b = blockOf (M ++ [b]) (M.length / 64) :=
      Vector.ext fun i hi => h.set_get b hi (by omega)
    rw [absorbByte_full b hf]
    refine ⟨?_, by simp; omega, fun i _ hlt => absurd hlt (Nat.not_lt_zero i)⟩
    rw [hq, compressBlocks_succ, hwhole, hblock]

theorem HoldsMessage.absorbBytes {M : List Byte} {s : State} (h : HoldsMessage M s) (bs : List Byte) :
    HoldsMessage (M ++ bs) (bs.foldl State.absorbByte s) := by
  induction bs generalizing M s with
  | nil => rwa [List.append_nil]
  | cons b bs ih =>
    rw [List.append_cons]
    exact ih (h.absorbByte b)

/-- The registers that hold the message are those of R261. -/
theorem HoldsMessage.congr {M : List Byte} {s t : State} (h : HoldsMessage M s) (hsame : SameHash s t) :
    HoldsMessage M t := by
  obtain ⟨hH, hbuf, hfill, -, -⟩ := hsame
  exact ⟨hH.trans h.H_eq, by rw [hfill, h.fill_eq], by rw [hbuf, hfill]; exact h.buf_eq⟩

/-! ## The padding of the message held (R181) -/

/-- The padded tail in the buffer is the padded message's own, as far as the length field. -/
theorem HoldsMessage.padTail_get {M : List Byte} {s : State} (h : HoldsMessage M s) {i : Nat} (hi : i < 64)
    (hfield : 64 * (M.length / 64) + i + 8 < (padMessage M).length) :
    (padTail s.buf s.bufFill)[i] = (blockOf (padMessage M) (M.length / 64))[i] := by
  have hfill := h.fill_eq
  rw [Machine.padTail_get]
  split_ifs with hlt heq
  · rw [h.buf_eq i hi hlt, blockOf_get_of_isPrefix (message_isPrefix_padMessage M) hi (by omega)]
  · rw [blockOf_get_of_some hi]
    rw [show 64 * (M.length / 64) + i = M.length by omega, padMessage_getElem?_marker]
  · exact (blockOf_get_of_some hi (padMessage_getElem?_zero (by omega) hfield)).symm

/-- The last eight bytes of the padded message's last block are the length field (R184). -/
theorem blockOf_padMessage_length {M : List Byte} {k i : Nat} (hk : 64 * (k + 1) = (padMessage M).length) (hi : i < 64)
    (h56 : 56 ≤ i) : (blockOf (padMessage M) k)[i] = lengthByte (BitVec.ofNat 64 (8 * M.length)) (i - 56) := by
  rw [blockOf_get_of_some hi]
  rw [show 64 * k + i = (padMessage M).length - 8 + (i - 56) by omega, padMessage_getElem?_length M (by omega)]

/-- FINALIZE compresses the last one or two blocks of the padded message, so that `H` is its hash (R190). -/
theorem HoldsMessage.effectFinalize_H {M : List Byte} {s : State} (h : HoldsMessage M s)
    (hlen : s.msgLen = BitVec.ofNat 64 (8 * M.length)) : (effectFinalize s).H = hashOf M := by
  have hfill := h.fill_eq
  have hlt := s.bufFill.isLt
  have hpad := padMessage_length M
  have hwhole : compressBlocks iv (padMessage M) (M.length / 64) = s.H := by
    rw [compressBlocks_of_isPrefix (message_isPrefix_padMessage M) iv (by omega), h.H_eq]
  by_cases hf : s.bufFill.val ≤ 55
  · have hblocks : (padMessage M).length / 64 = M.length / 64 + 1 := by omega
    have hlast : putLength (padTail s.buf s.bufFill) s.msgLen = blockOf (padMessage M) (M.length / 64) := by
      ext i hi : 1
      rw [putLength_get, hlen]
      split_ifs with h56
      · rw [blockOf_padMessage_length (by omega) hi h56]
      · exact h.padTail_get hi (by omega)
    rw [effectFinalize_one hf, hashOf, hblocks, compressBlocks_succ, hwhole, hlast]
  · have hblocks : (padMessage M).length / 64 = M.length / 64 + 1 + 1 := by omega
    have htail : padTail s.buf s.bufFill = blockOf (padMessage M) (M.length / 64) :=
      Vector.ext fun i hi => h.padTail_get hi (by omega)
    have hlast : putLength (Vector.replicate 64 0x00#8) s.msgLen = blockOf (padMessage M) (M.length / 64 + 1) := by
      ext i hi : 1
      rw [putLength_get, hlen]
      split_ifs with h56
      · rw [blockOf_padMessage_length (by omega) hi h56]
      · rw [Vector.getElem_replicate, blockOf_get_of_some hi (padMessage_getElem?_zero (by omega) (by omega))]
    rw [effectFinalize_two (by omega), hashOf, hblocks, compressBlocks_succ, compressBlocks_succ, hwhole, htail, hlast]

/-! ## Edges in sequence -/

/-- From every state of `P` the edges `cs`, whatever edges come after them, lead to a state of `Q`. -/
def Leads (P : State → Prop) (cs : List Cycle) (Q : State → Prop) : Prop :=
  ∀ (s : State) (rest : List Cycle), P s → s.inputs = cs ++ rest →
    ∃ t : State, Sys2Proof.core.run cs.length s = .next t ∧ t.inputs = rest ∧ Q t

theorem Leads.nil {P : State → Prop} : Leads P [] P := fun s _ hs hin => ⟨s, rfl, hin, hs⟩

theorem Leads.append {P Q R : State → Prop} {cs ds : List Cycle} (h : Leads P cs Q) (h' : Leads Q ds R) :
    Leads P (cs ++ ds) R := by
  intro s rest hs hin
  obtain ⟨t, ht, hin', hQ⟩ := h s (ds ++ rest) hs (by rw [hin, List.append_assoc])
  obtain ⟨u, hu, hin'', hR⟩ := h' t rest hQ hin'
  exact ⟨u, by rw [List.length_append, run_add _ _ ht, hu], hin'', hR⟩

/-- One edge. -/
theorem Leads.edge {P Q : State → Prop} {c : Cycle}
    (h : ∀ s rest, P s → s.inputs = c :: rest → ∃ t, step s = .next t ∧ t.inputs = rest ∧ Q t) : Leads P [c] Q := by
  intro s rest hs hin
  obtain ⟨t, ht, hin', hQ⟩ := h s rest hs hin
  exact ⟨t, run_one ht, hin', hQ⟩

theorem Leads.cons {P Q R : State → Prop} {c : Cycle} {cs : List Cycle} (h : Leads P [c] Q) (h' : Leads Q cs R) :
    Leads P (c :: cs) R := h.append h'

theorem Leads.mono {P Q Q' : State → Prop} {cs : List Cycle} (h : Leads P cs Q) (hQ : ∀ t, Q t → Q' t) :
    Leads P cs Q' := by
  intro s rest hs hin
  obtain ⟨t, ht, hin', ht'⟩ := h s rest hs hin
  exact ⟨t, ht, hin', hQ t ht'⟩

/-! ## A host that waits for each command (R89, R190, R260) -/

/-- `u` holds the registers of `s` that the host and the commands see, with `q` pending. -/
structure Agrees (s : State) (q : Option Pending) (u : State) : Prop where
  hash : SameHash s u
  dataIn : u.dataIn = s.dataIn
  target : u.target = s.target
  err : u.err = s.err
  pending : u.pending = q

theorem Agrees.refl {s : State} {q : Option Pending} (h : s.pending = q) : Agrees s q s := ⟨.refl s, rfl, rfl, rfl, h⟩

/-- What every edge sets is not among these registers. -/
theorem Agrees.begun {s u : State} {q : Option Pending} (h : Agrees s q u) (rest : List Cycle) (c : Cycle) :
    Agrees s q (State.beginEdge { u with inputs := rest } c) := ⟨h.hash, h.dataIn, h.target, h.err, h.pending⟩

theorem Agrees.withPending {s u : State} {q : Option Pending} (h : Agrees s q u) (q' : Option Pending) :
    Agrees s q' { u with pending := q' } := ⟨h.hash, h.dataIn, h.target, h.err, rfl⟩

theorem Agrees.effectOf {s u : State} {q : Option Pending} (h : Agrees s q u) (i : Instr) (data : Word) :
    Agrees (effectOf i data s) q (effectOf i data u) where
  hash := effectOf_sameHash i data h.hash
  dataIn := by rw [effectOf_dataIn, effectOf_dataIn, h.dataIn]
  target := by rw [effectOf_target, effectOf_target, h.target]
  err := by rw [effectOf_err, effectOf_err, h.err]
  pending := by rw [effectOf_pending, h.pending]

theorem quiet_iff {c : Cycle} : c.quiet = true ↔ c.rstN = true ∧ ¬ (c.sel = true ∧ c.we = true) := by
  simp [Cycle.quiet, imp_iff_not_or]

/-- At a quiet edge the engine's part of the edge is all that happens. -/
theorem step_quiet {c : Cycle} {s u : State} {q : Option Pending} {rest : List Cycle} (hc : c.quiet = true)
    (h : Agrees s q u) (hin : u.inputs = c :: rest) :
    ∃ before v : State, step u = engineTurn c before v ∧ before.pending = q ∧ busyEdgeError c before = none ∧
      v.inputs = rest ∧ Agrees s q v := by
  obtain ⟨hr, hw⟩ := quiet_iff.1 hc
  obtain ⟨w, hv⟩ := busAccess_quiet hw { u with inputs := rest }
  have hb := h.begun rest c
  exact ⟨_, _, (step_cons hin).trans (clockEdge_running hr hv), h.pending, busyEdgeError_quiet hw _, rfl,
    hb.hash, hb.dataIn, hb.target, hb.err, hb.pending⟩

theorem leads_quiet_idle {c : Cycle} (hc : c.quiet = true) (s : State) : Leads (Agrees s none) [c] (Agrees s none) :=
  .edge fun u rest hu hin => by
    obtain ⟨_, v, hv, hp, -, hin', hagree⟩ := step_quiet hc hu hin
    exact ⟨v, hv.trans (engineTurn_idle hp c v), hin', hagree⟩

theorem leads_quiet_waits {c : Cycle} (hc : c.quiet = true) (s : State) {p : Pending} (hl : 1 < p.left) :
    Leads (Agrees s (some p)) [c] (Agrees s (some { p with left := p.left - 1 })) :=
  .edge fun u rest hu hin => by
    obtain ⟨_, v, hv, hp, -, hin', hagree⟩ := step_quiet hc hu hin
    exact ⟨_, hv.trans (engineTurn_waits hp hl c v), hin', hagree.withPending _⟩

theorem leads_quiet_completes {c : Cycle} (hc : c.quiet = true) (s : State) {p : Pending} {i : Instr} (hl : p.left ≤ 1)
    (hd : decode p.cmd = .ok i) : Leads (Agrees s (some p)) [c] (Agrees (effectOf i p.data s) none) :=
  .edge fun u rest hu hin => by
    obtain ⟨_, v, hv, hp, herr, hin', hagree⟩ := step_quiet hc hu hin
    rw [engineTurn_completes hp hl, herr, completePending_quiet hd] at hv
    exact ⟨_, hv, (effectOf_inputs i p.data v).trans hin', (hagree.effectOf i p.data).withPending none⟩

/-- An idle engine left alone keeps its registers. -/
theorem leads_idle {cs : List Cycle} (hcs : ∀ c ∈ cs, c.quiet = true) (s : State) :
    Leads (Agrees s none) cs (Agrees s none) := by
  induction cs with
  | nil => exact .nil
  | cons c cs ih =>
    rw [List.forall_mem_cons] at hcs
    exact (leads_quiet_idle hcs.1 s).cons (ih hcs.2)

/-- A pending command left alone for as many edges as it has left completes (R260). -/
theorem leads_completion {cs : List Cycle} (hcs : ∀ c ∈ cs, c.quiet = true) (s : State) {p : Pending} {i : Instr}
    (h1 : 1 ≤ p.left) (hl : p.left ≤ cs.length) (hd : decode p.cmd = .ok i) :
    Leads (Agrees s (some p)) cs (Agrees (effectOf i p.data s) none) := by
  induction cs generalizing p with
  | nil => exact absurd (h1.trans hl) (by decide)
  | cons c cs ih =>
    rw [List.forall_mem_cons] at hcs
    rw [List.length_cons] at hl
    by_cases hlast : p.left ≤ 1
    · exact (leads_quiet_completes hcs.1 s hlast hd).cons (leads_idle hcs.2 _)
    · exact (leads_quiet_waits hcs.1 s (not_le.1 hlast)).cons
        (ih (p := { p with left := p.left - 1 }) hcs.2 (by simp only; omega) (by simp only; omega) hd)

/-- The edge of a CMD write that passes its checks issues the command (R60, R260). -/
theorem leads_issue {i : Instr} (hwf : i.wellFormed = true) {s : State}
    (hcheck : checkOf i { s with pending := none } = none) (lat : Latencies) :
    Leads (Agrees s none) [writeCycle .cmd (encode i) lat]
      (if lat.of i = 0 then Agrees (effectOf i s.dataIn s) none
        else Agrees s (some { cmd := encode i, data := s.dataIn, left := lat.of i })) :=
  .edge fun u rest hu hin => by
    have hbegun := hu.begun rest (writeCycle .cmd (encode i) lat)
    generalize hv : State.beginEdge { u with inputs := rest } (writeCycle .cmd (encode i) lat) = v at hbegun
    have hlat : v.lat = lat := by rw [← hv]; rfl
    have hin' : v.inputs = rest := by rw [← hv]; rfl
    have hb : u.busy = false := (busy_eq_false_iff u).2 hu.pending
    have hpass : checkOf i v = none := by
      rw [← hcheck]
      obtain ⟨-, -, hfill, hlen, hphase⟩ := hbegun.hash
      exact checkOf_congr i ((busy_eq_false_iff v).2 hbegun.pending) hfill hlen hphase
    have hstep : step u = exec i v := by
      rw [step_command_idle hin rfl rfl rfl hb rfl, hv]
      exact issueWord_legal (decode_encode hwf) v
    rw [← hbegun.dataIn, ← hlat]
    split_ifs with hl
    · exact ⟨_, hstep.trans (exec_completes hpass hl), (effectOf_inputs _ _ _).trans hin', hbegun.effectOf i v.dataIn⟩
    · exact ⟨_, hstep.trans (exec_pends hpass hl), hin', hbegun.withPending _⟩

/-- A command that passes its checks and is waited for has its effect, whatever its latency and the wait. -/
theorem leads_command {i : Instr} (hwf : i.wellFormed = true) {s : State}
    (hcheck : checkOf i { s with pending := none } = none) {w : Waited} (hw : w.long i = true) :
    Leads (Agrees s none) (commandCycles i w) (Agrees (effectOf i s.dataIn s) none) := by
  simp only [Waited.long, Bool.and_eq_true, List.all_eq_true, decide_eq_true_eq] at hw
  obtain ⟨hquiet, hlong⟩ := hw
  have hissue := leads_issue hwf hcheck w.lat
  by_cases hl : w.lat.of i = 0
  · rw [if_pos hl] at hissue
    exact hissue.cons (leads_idle hquiet _)
  · rw [if_neg hl] at hissue
    exact hissue.cons (leads_completion hquiet s (Nat.one_le_iff_ne_zero.2 hl) hlong (decode_encode hwf))

theorem leads_dataIn (s : State) (v : Word) (lat : Latencies) :
    Leads (Agrees s none) [writeCycle .dataIn v lat] (Agrees { s with dataIn := v } none) :=
  .edge fun u rest hu hin => by
    have hb : u.busy = false := (busy_eq_false_iff u).2 hu.pending
    have hbegun := hu.begun rest (writeCycle .dataIn v lat)
    exact ⟨_, (step_write_idle hin rfl rfl rfl hb).trans (memWrite_dataIn _ v), rfl,
      hbegun.hash, rfl, hbegun.target, hbegun.err, hbegun.pending⟩

/-! ## A host that hashes a message (R167, R190, R191) -/

/-- An idle engine in the middle of a hash: `M` is absorbed, no error is set, and TARGET is as it was at the start. -/
structure Hashing (target : BitVec 9) (M : List Byte) (s : State) : Prop where
  message : HoldsMessage M s
  msgLen_eq : s.msgLen = BitVec.ofNat 64 (8 * M.length)
  phase_eq : s.phase = .absorb
  target_eq : s.target = target
  err_eq : s.err = Errors.none
  pending_eq : s.pending = none

theorem Hashing.congr {target : BitVec 9} {M : List Byte} {s t : State} (h : Hashing target M s)
    (ha : Agrees s none t) : Hashing target M t := by
  obtain ⟨hmessage, hlen, hphase, htarget, herr, -⟩ := h
  obtain ⟨-, -, -, hlen', hphase'⟩ := ha.hash
  exact ⟨hmessage.congr ha.hash, hlen'.trans hlen, hphase'.trans hphase, ha.target.trans htarget, ha.err.trans herr,
    ha.pending⟩

theorem hashing_init {s : State} (hp : s.pending = none) : Hashing s.target [] (effectInit s) :=
  ⟨⟨rfl, rfl, fun _ _ hlt => absurd hlt (Nat.not_lt_zero _)⟩, rfl, rfl, rfl, rfl, hp⟩

theorem Hashing.absorb {target : BitVec 9} {M : List Byte} {s : State} (h : Hashing target M s) (n : BitVec 3)
    (data : Word) : Hashing target (M ++ absorbedBytes n data) (effectAbsorb n data s) := by
  have hkept := absorbBytes_storesOnly (absorbedBytes n data) s
  have hmessage := h.message.absorbBytes (absorbedBytes n data)
  refine ⟨⟨hmessage.H_eq, hmessage.fill_eq, hmessage.buf_eq⟩, ?_, hkept.phase.trans h.phase_eq,
    hkept.target.trans h.target_eq, hkept.err.trans h.err_eq, hkept.pending.trans h.pending_eq⟩
  rw [List.length_append, absorbedBytes_length, Nat.mul_add, BitVec.ofNat_add, ← h.msgLen_eq]
  rfl

theorem bitLength_toNat {M : List Byte} (h : 8 * M.length < 2 ^ 64) :
    (BitVec.ofNat 64 (8 * M.length)).toNat = 8 * M.length := by
  rw [BitVec.toNat_ofNat, Nat.mod_eq_of_lt h]

theorem leads_init {w : Waited} (hw : w.long .init = true) (target : BitVec 9) :
    Leads (fun s => s.pending = none ∧ s.target = target) (commandCycles .init w) (Hashing target []) := by
  rintro s rest ⟨hp, rfl⟩ hin
  exact ((leads_command rfl (checkInit_passes rfl) hw).mono fun _ => (hashing_init hp).congr) s rest (.refl hp) hin

/-- The bytes of one piece go on the message. -/
theorem leads_piece {p : Piece} (hp : p.wellFormed = true) (target : BitVec 9) {M : List Byte}
    (hM : 8 * (M ++ p.bytes).length < 2 ^ 64) :
    Leads (Hashing target M) p.cycles (Hashing target (M ++ p.bytes)) := by
  intro s rest h hin
  simp only [Piece.wellFormed, Bool.and_eq_true, List.all_eq_true] at hp
  obtain ⟨⟨hwf, hbetween⟩, hwaited⟩ := hp
  obtain ⟨h1, h4⟩ : 1 ≤ p.nbytes.toNat ∧ p.nbytes.toNat ≤ 4 := of_decide_eq_true hwf
  have hbytes : p.bytes.length = p.nbytes.toNat := absorbedBytes_length _ _
  rw [List.length_append, hbytes] at hM
  have hlen : s.msgLen.toNat = 8 * M.length := h.msgLen_eq ▸ bitLength_toNat (by omega)
  have hcheck : checkOf (.absorb p.nbytes) { s with dataIn := p.data, pending := none } = none :=
    checkAbsorb_passes rfl h1 h4 h.phase_eq (by simp only; omega)
  have hloaded : Hashing target M { s with dataIn := p.data } :=
    ⟨⟨h.message.H_eq, h.message.fill_eq, h.message.buf_eq⟩, h.msgLen_eq, h.phase_eq, h.target_eq, h.err_eq,
      h.pending_eq⟩
  have hcommand := leads_command (s := { s with dataIn := p.data }) hwf hcheck hwaited
  have hleads := (leads_dataIn s p.data p.waited.lat).cons ((leads_idle hbetween _).append hcommand)
  exact (hleads.mono fun _ => (hloaded.absorb p.nbytes p.data).congr) s rest (.refl h.pending_eq) hin

theorem leads_pieces {ps : List Piece} (hps : ∀ p ∈ ps, p.wellFormed = true) (target : BitVec 9) {M : List Byte}
    (hM : 8 * (M ++ ps.flatMap Piece.bytes).length < 2 ^ 64) :
    Leads (Hashing target M) (ps.flatMap Piece.cycles) (Hashing target (M ++ ps.flatMap Piece.bytes)) := by
  induction ps generalizing M with
  | nil => simpa using Leads.nil
  | cons p ps ih =>
    rw [List.forall_mem_cons] at hps
    rw [List.flatMap_cons, ← List.append_assoc] at hM
    rw [List.flatMap_cons, List.flatMap_cons, ← List.append_assoc]
    refine (leads_piece hps.1 target ?_).append (ih hps.2 hM)
    rw [List.length_append] at hM
    omega

/-- An idle engine whose digest is that of `M` (R190). -/
structure Hashed (target : BitVec 9) (M : List Byte) (s : State) : Prop where
  H_eq : s.H = hashOf M
  msgLen_eq : s.msgLen = BitVec.ofNat 64 (8 * M.length)
  phase_eq : s.phase = .final
  target_eq : s.target = target
  err_eq : s.err = Errors.none
  pending_eq : s.pending = none

theorem leads_finalize {w : Waited} (hw : w.long .finalize = true) (target : BitVec 9) (M : List Byte) :
    Leads (Hashing target M) (commandCycles .finalize w) (Hashed target M) := by
  intro s rest h hin
  have hleads := leads_command (s := s) rfl (checkFinalize_passes rfl h.phase_eq) hw
  refine (hleads.mono fun t ha => ?_) s rest (.refl h.pending_eq) hin
  obtain ⟨hH, -, -, hlen, hphase⟩ := ha.hash
  have hkept := pad_storesOnly s
  exact ⟨hH.trans (h.message.effectFinalize_H h.msgLen_eq), hlen.trans (hkept.msgLen.trans h.msgLen_eq), hphase,
    ha.target.trans (hkept.target.trans h.target_eq), ha.err.trans (hkept.err.trans h.err_eq), ha.pending⟩

theorem leads_hashCycles {init final : Waited} {pieces : List Piece} (hinit : init.long .init = true)
    (hfinal : final.long .finalize = true) (hps : ∀ p ∈ pieces, p.wellFormed = true)
    (hM : 8 * (pieces.flatMap Piece.bytes).length < 2 ^ 64) (target : BitVec 9) :
    Leads (fun s => s.pending = none ∧ s.target = target) (hashCycles init pieces final)
      (Hashed target (pieces.flatMap Piece.bytes)) :=
  ((leads_init hinit target).append (leads_pieces hps target hM)).append (leads_finalize hfinal target _)

/-- Settles O52, by `leads_hashCycles`. -/
theorem hashCommandsGiveTheDigest : Obligations.HashCommandsGiveTheDigest := by
  intro s init final pieces rest hb hinit hfinal hps hM
  have hp : s.pending = none := (busy_eq_false_iff s).1 hb
  obtain ⟨t, ht, hin, h⟩ := leads_hashCycles hinit hfinal hps hM s.target
    { s with inputs := hashCycles init pieces final ++ rest } rest ⟨hp, rfl⟩ rfl
  have hidle : t.busy = false := (busy_eq_false_iff t).2 h.pending_eq
  have hread (i : Fin 8) : memRead (.digest i) t = (hashOf (pieces.flatMap Piece.bytes))[i] := by
    rw [← h.H_eq]
    exact ownedRead_idle hidle _ _
  have hlen : t.msgLen.toNat = 8 * (pieces.flatMap Piece.bytes).length := h.msgLen_eq ▸ bitLength_toNat hM
  exact ⟨t, ht, hidle, hin, h.phase_eq, h.H_eq, hread, hlen, h.err_eq, h.target_eq⟩

/-- Settles O53: each of the two runs ends with the hash of the one message. -/
theorem streamingDoesNotDependOnThePieces : Obligations.StreamingDoesNotDependOnThePieces := by
  intro s s' init final init' final' ps ps' hb hb' hi hf hi' hf' hps hps' hM heq
  obtain ⟨t, ht, -, -, -, hH, -⟩ := hashCommandsGiveTheDigest s init final ps [] hb hi hf hps hM
  obtain ⟨t', ht', -, -, -, hH', -⟩ := hashCommandsGiveTheDigest s' init' final' ps' [] hb' hi' hf' hps' (heq ▸ hM)
  rw [List.append_nil] at ht ht'
  exact ⟨t, t', ht, ht', by rw [hH, hH', heq]⟩

end Sys2Proof.Machine

/-! # The leading-zero count and MEETS (43_leading_zero.md)

The count of a byte string and the size of the number it spells add up to its length in bits, and the digest bytes spell the
number `H[0] ... H[7]`. So what R202, R205 and R206 say of the count are facts about the size of that number. -/

namespace Sys2Proof.Machine

/-! ## The count of a byte string (R200) -/

theorem toNat_append_eq_mul_add {m n : Nat} (x : BitVec m) (y : BitVec n) :
    (x ++ y).toNat = x.toNat * 2 ^ n + y.toNat := by
  rw [BitVec.toNat_append, ← Nat.shiftLeft_add_eq_or_of_lt y.isLt, Nat.shiftLeft_eq]

theorem toNat_flattenList_cons (b : Byte) (bs : List Byte) :
    (BitVec.flattenList (b :: bs)).toNat = b.toNat * 2 ^ (8 * bs.length) + (BitVec.flattenList bs).toNat := by
  rw [BitVec.flattenList, BitVec.toNat_cast, toNat_append_eq_mul_add]

@[simp] theorem toNat_flattenList_singleton (b : Byte) : (BitVec.flattenList [b]).toNat = b.toNat := by
  rw [toNat_flattenList_cons]
  exact Nat.mul_one _

theorem size_of_ne_zero {n : Nat} (h : n ≠ 0) : n.size = n.log2 + 1 :=
  le_antisymm (Nat.size_le.2 Nat.lt_log2_self) (Nat.lt_size.2 (Nat.log2_self_le h))

/-- Below a nonzero number, `m` more bits add `m` to its size whatever they are. -/
theorem size_mul_two_pow_add {a m r : Nat} (ha : a ≠ 0) (hr : r < 2 ^ m) : (a * 2 ^ m + r).size = a.size + m := by
  apply le_antisymm
  · rw [Nat.size_le, Nat.pow_add]
    calc a * 2 ^ m + r < (a + 1) * 2 ^ m := by rw [Nat.add_one_mul]; omega
      _ ≤ 2 ^ a.size * 2 ^ m := Nat.mul_le_mul_right _ a.lt_size_self
  · rw [← Nat.size_shiftLeft ha, Nat.shiftLeft_eq]
    exact Nat.size_le_size (Nat.le_add_right _ _)

theorem clz8_add_size {b : Byte} (h : b.toNat ≠ 0) : clz8 b + b.toNat.size = 8 := by
  have hlog : b.toNat.log2 < 8 := (Nat.log2_lt h).2 b.isLt
  rw [clz8, size_of_ne_zero h]
  omega

/-- A zero byte leaves the number's size as it is; the first nonzero byte fixes it, and ends the scan. -/
theorem leadingZeros_add_size (bs : List Byte) :
    leadingZeros bs + (BitVec.flattenList bs).toNat.size = 8 * bs.length := by
  induction bs with
  | nil => rfl
  | cons b bs ih =>
    rw [leadingZeros, toNat_flattenList_cons, List.length_cons]
    split_ifs with hb
    · rw [hb, BitVec.toNat_zero, Nat.zero_mul, Nat.zero_add]
      omega
    · have hne : b.toNat ≠ 0 := BitVec.toNat_ne_iff_ne.2 hb
      have hclz := clz8_add_size hne
      rw [size_mul_two_pow_add hne (BitVec.isLt _)]
      omega

/-! ## The count of the 256-bit number (R201) -/

/-- The 256-bit number `H[0] ... H[7]`, `H[0]` the most significant (R201). -/
def digestNumber (H : Vector Word 8) : Nat :=
  (H[0] ++ H[1] ++ H[2] ++ H[3] ++ H[4] ++ H[5] ++ H[6] ++ H[7]).toNat

/-- The four bytes of a word, most significant first, spell the word (R66, R68). -/
theorem toNat_flattenList_absorbedBytes (v : Word) : (BitVec.flattenList (absorbedBytes 4#3 v)).toNat = v.toNat := by
  have hbytes : absorbedBytes 4#3 v = [byteOf v 0] ++ [byteOf v 1] ++ [byteOf v 2] ++ [byteOf v 3] := rfl
  conv_rhs => rw [← be32_byteOf v, be32]
  rw [hbytes]
  simp only [BitVec.toNat_flattenList_append, toNat_flattenList_singleton, BitVec.toNat_append, List.length_singleton,
    Nat.mul_one]

theorem digestBytes_eq_words (H : Vector Word 8) :
    digestBytes H = absorbedBytes 4#3 H[0] ++ absorbedBytes 4#3 H[1] ++ absorbedBytes 4#3 H[2] ++ absorbedBytes 4#3 H[3] ++
      absorbedBytes 4#3 H[4] ++ absorbedBytes 4#3 H[5] ++ absorbedBytes 4#3 H[6] ++ absorbedBytes 4#3 H[7] := rfl

/-- The digest bytes are the bytes of the number, from most to least significant (R201). -/
theorem toNat_flattenList_digestBytes (H : Vector Word 8) :
    (BitVec.flattenList (digestBytes H)).toNat = digestNumber H := by
  rw [digestBytes_eq_words]
  simp only [digestNumber, BitVec.toNat_flattenList_append, toNat_flattenList_absorbedBytes, absorbedBytes_length,
    BitVec.toNat_append]
  rfl

theorem lzc_add_size (H : Vector Word 8) : lzc H + (digestNumber H).size = 256 := by
  rw [← toNat_flattenList_digestBytes, lzc, leadingZeros_add_size]
  rfl

/-- Settles O44, by `lzc_add_size`. -/
theorem lzcCountsTheLeadingZerosOfTheDigest : Obligations.LzcCountsTheLeadingZerosOfTheDigest := by
  intro H n hn
  have hsum : lzc H + n.size = 256 := hn ▸ lzc_add_size H
  split_ifs with h0
  · rwa [h0, Nat.size_zero] at hsum
  · rw [size_of_ne_zero h0] at hsum
    omega

/-! ## The range of the count (R202) -/

theorem digestNumber_eq_sum (H : Vector Word 8) :
    digestNumber H = H[0].toNat * 2 ^ 224 + H[1].toNat * 2 ^ 192 + H[2].toNat * 2 ^ 160 + H[3].toNat * 2 ^ 128 +
      H[4].toNat * 2 ^ 96 + H[5].toNat * 2 ^ 64 + H[6].toNat * 2 ^ 32 + H[7].toNat := by
  simp only [digestNumber, toNat_append_eq_mul_add]
  ring

/-- The first two words are the upper 64 bits of the number. -/
theorem digestNumber_div (H : Vector Word 8) : digestNumber H / 2 ^ 192 = H[0].toNat * 2 ^ 32 + H[1].toNat := by
  have h2 := H[2].isLt
  have h3 := H[3].isLt
  have h4 := H[4].isLt
  have h5 := H[5].isLt
  have h6 := H[6].isLt
  have h7 := H[7].isLt
  rw [digestNumber_eq_sum]
  omega

/-- A highest set bit in the first two words gives the count, whatever the other words hold. -/
theorem lzc_of_upper {H : Vector Word 8} (k : Nat) (hlow : 2 ^ k ≤ H[0].toNat * 2 ^ 32 + H[1].toNat)
    (hhigh : H[0].toNat * 2 ^ 32 + H[1].toNat < 2 ^ (k + 1)) : lzc H = 63 - k := by
  have hsum := lzc_add_size H
  rw [← digestNumber_div, Nat.le_div_iff_mul_le (by decide), ← Nat.pow_add, ← Nat.lt_size] at hlow
  rw [← digestNumber_div, Nat.div_lt_iff_lt_mul (by decide), ← Nat.pow_add, ← Nat.size_le] at hhigh
  omega

/-- The value of a word's highest bits, from bit `n` up, is the word's quotient by `2 ^ n`. -/
theorem toNat_div_of_upper {v : Word} {n m : Nat} {x : BitVec m} (hw : 32 = n + m) (hx : v.extractLsb' n m = x) :
    v.toNat / 2 ^ n = x.toNat := by
  have hlt : v.toNat / 2 ^ n < 2 ^ m := Nat.div_lt_of_lt_mul (Nat.pow_add 2 n m ▸ hw ▸ v.isLt)
  rw [← hx, BitVec.extractLsb'_toNat, Nat.shiftRight_eq_div_pow, Nat.mod_eq_of_lt hlt]

/-- The count is 256 for the digest of 32 zero bytes and no other. -/
theorem lzc_eq_256_iff (H : Vector Word 8) : lzc H = 256 ↔ H = Vector.replicate 8 0#32 := by
  have hsum := lzc_add_size H
  constructor
  · intro h
    have hzero : digestNumber H = 0 := Nat.size_eq_zero.1 (by omega)
    rw [digestNumber_eq_sum] at hzero
    ext i hi : 1
    apply BitVec.eq_of_toNat_eq
    rw [Vector.getElem_replicate, BitVec.toNat_zero]
    interval_cases i <;> omega
  · rintro rfl
    have hzero : digestNumber (Vector.replicate 8 0#32) = 0 := by decide
    rwa [hzero] at hsum

/-- Settles O45: the corner cases in the first two words by `lzc_of_upper`. -/
theorem lzcRangeAndCorners : Obligations.LzcRangeAndCorners := by
  refine ⟨lzc_le, (lzc_eq_256_iff _).2 rfl, fun H h => ?_, fun H h => ?_, fun H h => ?_, fun H h => ?_, by decide,
    fun H h0 h1 => ?_⟩ <;> have hlt := H[1].isLt
  · have hbits : H[0].toNat / 2 ^ 16 = 0x000f := toNat_div_of_upper rfl h
    exact lzc_of_upper 51 (by omega) (by omega)
  · have hbits : H[0].toNat / 2 ^ 24 = 0xff := toNat_div_of_upper rfl h
    exact lzc_of_upper 63 (by omega) (by omega)
  · have hword : H[0].toNat = 0x7fffffff := h ▸ rfl
    exact lzc_of_upper 62 (by omega) (by omega)
  · have hword : H[0].toNat = 1 := h ▸ rfl
    exact lzc_of_upper 32 (by omega) (by omega)
  · have hword : H[0].toNat = 0 := h0 ▸ rfl
    have hword' : H[1].toNat = 0x8000 := h1 ▸ rfl
    exact lzc_of_upper 15 (by omega) (by omega)

/-! ## MEETS (R205 to R207) -/

theorem meets_iff (s : State) : s.meets = true ↔ s.phase = .final ∧ s.target.toNat ≤ lzc s.H := by
  simp [State.meets, State.digestValid]

/-- Settles O46: each part is `meets_iff` on the state in question, with `lzc_eq_256_iff` where TARGET is 256. -/
theorem meetsComparesTheCountWithTarget : Obligations.MeetsComparesTheCountWithTarget := by
  refine ⟨meets_iff, fun s hb hp hl ht => ⟨_, exec_completes (checkFinalize_passes hb hp) hl, ?_⟩, fun s hp ht => ?_,
    fun s v hp hv => ⟨_, memWrite_target_low hv, ?_⟩⟩
  · rw [meets_iff, effectOf_target, ht]
    exact ⟨rfl, Nat.zero_le _⟩
  · have hle := lzc_le s.H
    have htarget : s.target.toNat = 256 := by rw [ht]; rfl
    rw [meets_iff, ← lzc_eq_256_iff]
    simp only [hp, htarget, true_and]
    omega
  · rw [meets_iff, target_toNat hv]
    exact and_iff_right hp

end Sys2Proof.Machine

/-! # Errors and several engines (60_exceptions.md)

The checks of a write in their order, what a refused write leaves, when ERR_BUSY can arise, the edge at which a command
completes, runs that never stop, and engines that share nothing. -/

namespace Sys2Proof.Machine

/-! ## Runs never stop (R229, R230) -/

/-- Settles O49: the invariant goes along every run (`run_inv`), and each of its states answers a next one. -/
theorem soundStatesNeverStop : Obligations.SoundStatesNeverStop := by
  intro s h n
  obtain ⟨t, ht, -⟩ := run_inv n h
  exact ⟨t, ht⟩

/-! ## The checks of a write to CMD (R226) -/

/-- A write of the word of a command that fails a check raises that check's error. -/
theorem memWrite_encode_refused {i : Instr} {s : State} {b : ErrBit} (h : checkOf i s = some b) :
    memWrite .cmd (encode i) s = .next (s.raise b) :=
  (meaningIsTheCommandWrite i s).trans (exec_refused h)

/-- A write of the word of a command that passes its checks issues it. -/
theorem memWrite_encode_issued {i : Instr} {s : State} (hwf : i.wellFormed = true) (h : checkOf i s = none) :
    ∃ j, decode (encode i) = .ok j ∧
      memWrite .cmd (encode i) s = .next (s.issue (encode i) (s.lat.of j) (effectOf j s.dataIn)) :=
  ⟨i, decode_encode hwf, (meaningIsTheCommandWrite i s).trans (exec_issued h)⟩

/-- A legal word of OP 2 is an ABSORB of the count in its NBYTES field. -/
theorem legal_absorb {v : Word} (h : legal v = true) (hop : opField v = 2#4) :
    1 ≤ (nbytesField v).toNat ∧ (nbytesField v).toNat ≤ 4 ∧ encode (.absorb (nbytesField v)) = v := by
  obtain ⟨hrsvd, ⟨-, h1, h4⟩ | ⟨hother, -⟩⟩ := legal_iff.1 h
  · exact ⟨h1, h4, (eq_cmdWord hrsvd hop rfl).symm⟩
  · rw [hop] at hother
    exact absurd hother (by decide)

/-- In phase FINAL every well-formed command but INIT is refused. -/
theorem exec_final {i : Instr} {s : State} (hb : s.busy = false) (hp : s.phase = .final) (hwf : i.wellFormed = true)
    (hi : i ≠ .init) : exec i s = .next (s.raise .seq) := by
  cases i with
  | init => exact absurd rfl hi
  | absorb n =>
    obtain ⟨h1, h4⟩ := of_decide_eq_true hwf
    exact exec_absorb_final hb hp h1 h4
  | compress => exact exec_compress_final hb hp
  | finalize => exact exec_finalize_final hb hp

theorem checkCompress_filled {s : State} (hb : s.busy = false) (hf : s.bufFill ≠ 0) :
    checkOf .compress s = some .seq := by
  simp [checkOf, checkCompress, hb, hf]

theorem checkAbsorb_tooLong {n : BitVec 3} {s : State} (hb : s.busy = false) (h1 : 1 ≤ n.toNat) (h4 : n.toNat ≤ 4)
    (hp : s.phase = .absorb) (hl : 2 ^ 64 ≤ s.msgLen.toNat + 8 * n.toNat) : checkOf (.absorb n) s = some .len := by
  have hlong : s.tooLong (8 * n.toNat) = true := decide_eq_true hl
  simp [checkOf, checkAbsorb, hb, hp, Instr.wellFormed, h1, h4, hlong]

theorem checkCompress_tooLong {s : State} (hb : s.busy = false) (hp : s.phase = .absorb) (hf : s.bufFill = 0)
    (hl : 2 ^ 64 ≤ s.msgLen.toNat + 512) : checkOf .compress s = some .len := by
  have hlong : s.tooLong 512 = true := decide_eq_true hl
  simp [checkOf, checkCompress, hb, hp, hf, hlong]

/-- Settles O32: a legal word is the encoding of its command, whose checks fail or pass as the state says. -/
theorem writeChecksComeInOrder : Obligations.WriteChecksComeInOrder := by
  intro s v
  refine ⟨memWrite_cmd_busy v, fun hb hv => ?_, fun hb hv hop hp => ?_, ?_, fun hb hv hp hlen => ?_, fun hb hok => ?_,
    fun k => memWrite_block_busy k v, fun k hb => ⟨_, memWrite_block_idle k v hb⟩, memWrite_target_high,
    fun h => ⟨_, memWrite_target_low h⟩⟩
  · exact memWrite_cmd_undecodable (fun hd => by simp [exists_decode_iff_legal.1 hd] at hv) hb
  · obtain ⟨i, hwf, rfl⟩ := exists_encode_of_legal hv
    exact (meaningIsTheCommandWrite i s).trans (exec_final hb hp hwf (by rintro rfl; exact hop rfl))
  · rintro hb rfl - hf
    exact memWrite_encode_refused (checkCompress_filled hb hf)
  · obtain ⟨hop, hl⟩ | ⟨rfl, hf, hl⟩ := hlen
    · obtain ⟨h1, h4, henc⟩ := legal_absorb hv hop
      exact henc ▸ memWrite_encode_refused (checkAbsorb_tooLong hb h1 h4 hp hl)
    · exact memWrite_encode_refused (checkCompress_tooLong hb hp hf hl)
  · obtain rfl | ⟨hp, ⟨hv, hop, hl⟩ | ⟨rfl, hf, hl⟩ | rfl⟩ := hok
    · exact memWrite_encode_issued (i := .init) rfl (checkInit_passes hb)
    · obtain ⟨h1, h4, henc⟩ := legal_absorb hv hop
      exact henc ▸ memWrite_encode_issued (decide_eq_true ⟨h1, h4⟩) (checkAbsorb_passes hb h1 h4 hp hl)
    · exact memWrite_encode_issued (i := .compress) rfl (checkCompress_passes hb hp hf hl)
    · exact memWrite_encode_issued (i := .finalize) rfl (checkFinalize_passes hb hp)

/-! ## What a refused write leaves (R220, R227) -/

/-- The bit of STATUS at which an error bit stands (R61). -/
def errPlace : ErrBit → Fin 32
  | .illegal => 16
  | .seq => 17
  | .busy => 18
  | .len => 19
  | .target => 20

/-- STATUS reads its bits but for 1, 2 and 13:8 exactly, busy or not (R57). -/
theorem statusRead_fixed (s : State) {j : Fin 32} (hj : ¬ (j.val = 1 ∨ j.val = 2 ∨ (8 ≤ j.val ∧ j.val ≤ 13))) :
    s.statusRead.getLsbD j.val = s.statusWord.getLsbD j.val := by
  cases hb : s.busy with
  | true => rw [statusRead_busy_getLsbD hb, if_neg hj]
  | false => rw [statusRead_idle hb]

theorem statusRead_errPlace (s : State) (b : ErrBit) : s.statusRead.getLsbD (errPlace b).val = s.err.get b := by
  rw [statusRead_fixed s (by cases b <;> decide), statusWord_getLsbD s (errPlace b).isLt]
  cases b <;> rfl

/-- Only a refused write and an INIT of latency 0 change the error bits. -/
theorem WriteResult.err_changed {r : Reg} {v : Word} {s t : State} (h : WriteResult r v s t) (hne : t.err ≠ s.err) :
    (∃ b, t = s.raise b) ∨ (r = .cmd ∧ v = encode .init ∧ t.err = Errors.none) := by
  cases h with
  | refused b => exact .inl ⟨b, rfl⟩
  | completed i hcmd _ hd _ _ =>
    rw [effectOf_err] at hne ⊢
    split_ifs at hne ⊢ with hi
    · subst hi
      exact .inr ⟨hcmd, eq_encode_of_decode hd, rfl⟩
    · exact absurd rfl hne
  | _ => exact absurd rfl hne

/-- Settles O33: `State.raise` and where STATUS shows its bit, and `WriteResult.err_changed`. -/
theorem refusedWriteSetsOneBitAndNothingElse : Obligations.RefusedWriteSetsOneBitAndNothingElse := by
  refine ⟨fun s b => ⟨rfl, fun b' => ?_, ?_⟩, fun s r v t h hne => ?_⟩
  · rw [raise_err, errors_get_set, decide_eq_decide.2 eq_comm]
  · have hshown : (memRead .status (s.raise b)).getLsbD (errPlace b).val = true :=
      (statusRead_errPlace (s.raise b) b).trans (by simp)
    cases b <;> exact hshown
  · obtain ⟨t', ht, hres⟩ := memWrite_next r v s
    rw [h] at ht
    cases ht
    exact hres.err_changed hne

/-! ## A host that waits (R222, R265) -/

/-- At this edge the host writes CMD or a BLOCKk only if the engine is not busy (R265). -/
def HostWaits (c : Cycle) (s : State) : Prop :=
  c.sel = true → c.we = true → (regAt c.addr = .cmd ∨ ∃ k, regAt c.addr = .block k) → s.busy = false

/-- The checks of a command raise ERR_BUSY in a busy engine only (R222). -/
theorem checkOf_idle_ne_busy (i : Instr) {s : State} (hb : s.busy = false) : checkOf i s ≠ some .busy := by
  cases i with
  | init => exact (checkInit_passes hb).trans_ne nofun
  | absorb _ | compress | finalize =>
    simp only [checkOf, checkAbsorb, checkCompress, checkFinalize, hb, Bool.false_eq_true, if_false]
    split_ifs <;> nofun

/-- A command leaves ERR_BUSY as it was, or cleared, in an idle engine. -/
theorem exec_idle_err_busy {i : Instr} {s t : State} (hb : s.busy = false) (h : exec i s = .next t)
    (ht : t.err.get .busy = true) : s.err.get .busy = true := by
  obtain ⟨b, hc, he⟩ | ⟨-, -, he⟩ | ⟨-, -, he⟩ := exec_cases i s <;> rw [he] at h <;> cases h
  · have hne : b ≠ .busy := fun hbusy => checkOf_idle_ne_busy i hb (hbusy ▸ hc)
    simpa [hne] using ht
  · rw [effectOf_err] at ht
    split_ifs at ht
    · simp at ht
    · exact ht
  · exact ht

/-- No write of an idle engine sets ERR_BUSY. -/
theorem memWrite_idle_err_busy {r : Reg} {v : Word} {s t : State} (hb : s.busy = false) (h : memWrite r v s = .next t)
    (ht : t.err.get .busy = true) : s.err.get .busy = true := by
  cases r with
  | cmd =>
    rw [memWrite_cmd_idle v hb] at h
    cases hd : decode v with
    | error e =>
      rw [issueWord_illegal hd] at h
      cases h
      simpa using ht
    | ok i =>
      rw [issueWord_legal hd] at h
      exact exec_idle_err_busy hb h ht
  | target =>
    by_cases hv : v.toNat ≤ 256
    · rw [memWrite_target_low hv] at h
      cases h
      exact ht
    · rw [memWrite_target_high (not_le.1 hv)] at h
      cases h
      simpa using ht
  | block k =>
    rw [memWrite_block_idle k v hb] at h
    cases h
    exact ht
  | dataIn | status | lzc | msglenLo | msglenHi | reserved | digest _ =>
    cases h
    exact ht

theorem busAccess_err_busy {c : Cycle} {s t : State} (hwait : HostWaits c s) (h : busAccess c s = .next t)
    (ht : t.err.get .busy = true) : s.err.get .busy = true := by
  by_cases hq : c.sel = true ∧ c.we = true
  · obtain ⟨hs, hw⟩ := hq
    cases hb : s.busy with
    | false =>
      rw [busAccess_write s hs hw] at h
      exact memWrite_idle_err_busy (s := s.beginEdge c) hb h ht
    | true =>
      obtain ⟨t', ht', -, -, -, herr⟩ := busAccess_busy_fields c hb
      rw [h] at ht'
      cases ht'
      have hreg : ¬ (regAt c.addr = .cmd ∨ ∃ k, regAt c.addr = .block k) := fun hreg => by
        simp [hwait hs hw hreg] at hb
      rw [herr, if_neg fun hcond => hreg hcond.2.2] at ht
      split_ifs at ht
      · simpa using ht
      · exact ht
  · obtain ⟨w, he⟩ := busAccess_quiet hq s
    rw [h] at he
    cases he
    exact ht

/-- A host that waits is never refused with ERR_BUSY by a busy engine. -/
theorem HostWaits.busyEdgeError_ne {c : Cycle} {s : State} {p : Pending} (hwait : HostWaits c s)
    (hp : s.pending = some p) : busyEdgeError c s ≠ some .busy := by
  intro h
  obtain ⟨hs, hw, hcheck⟩ := busyEdgeError_some h
  obtain ⟨-, hreg⟩ | ⟨hne, -⟩ := writeCheck_some hcheck
  · cases (busy_of_pending hp).symm.trans (hwait hs hw hreg)
  · cases hne

theorem completionErrors_of_ne_init {i : Instr} (hi : i ≠ .init) (raised : Option ErrBit) (s : State) :
    completionErrors i raised s = s.err := by
  cases i with
  | init => exact absurd rfl hi
  | absorb _ | compress | finalize => rfl

theorem engineTurn_err_busy {c : Cycle} {before s t : State} (hwait : HostWaits c before)
    (h : engineTurn c before s = .next t) (ht : t.err.get .busy = true) : s.err.get .busy = true := by
  cases hp : before.pending with
  | none =>
    rw [engineTurn_idle hp] at h
    cases h
    exact ht
  | some p =>
    by_cases hl : p.left ≤ 1
    · rw [engineTurn_completes hp hl] at h
      cases hd : decode p.cmd with
      | error e =>
        rw [completePending_illegal hd] at h
        cases h
      | ok i =>
        rw [completePending_legal hd] at h
        cases h
        by_cases hi : i = .init
        · subst hi
          exact absurd (completionErrors_init_get ht) (hwait.busyEdgeError_ne hp)
        · rwa [completionErrors_of_ne_init hi] at ht
    · rw [engineTurn_waits hp (not_le.1 hl)] at h
      cases h
      exact ht

/-- Settles O35: neither the access of a host that waits nor the engine's part of the edge sets ERR_BUSY. -/
theorem waitingHostNeverRaisesErrBusy : Obligations.WaitingHostNeverRaisesErrBusy := by
  intro s c rest t hin hhost h ht
  rw [step_cons hin] at h
  cases hr : c.rstN with
  | false =>
    rw [clockEdge_reset _ hr] at h
    cases h
    cases ht
  | true =>
    have hwait : HostWaits c { s with inputs := rest } := hhost hr
    obtain ⟨u, hu, he⟩ := clockEdge_running_inv hr h
    exact busAccess_err_busy (s := { s with inputs := rest }) hwait hu (engineTurn_err_busy hwait he ht)

/-! ## The edge at which a command completes (R228, R260) -/

/-- At the completion edge the effect is applied to the registers of the hash as they stood before the edge, and DATA_IN and
TARGET stay as the access has left them. -/
theorem step_completes {s u : State} {c : Cycle} {rest : List Cycle} {p : Pending} {i : Instr}
    (hin : s.inputs = c :: rest) (hr : c.rstN = true) (hp : s.pending = some p) (hl : p.left ≤ 1)
    (hd : decode p.cmd = .ok i) (hu : busAccess c { s with inputs := rest } = .next u) :
    ∃ t, step s = .next t ∧ t.pending = none ∧ t.err = completionErrors i (busyEdgeError c { s with inputs := rest }) u ∧
      SameHash (effectOf i p.data s) t ∧ t.dataIn = u.dataIn ∧ t.target = u.target := by
  have hsame : SameHash s u := by
    obtain ⟨u', hu', he⟩ := busAccess_busy (s := { s with inputs := rest }) c (busy_of_pending hp)
    rw [hu] at hu'
    cases hu'
    rw [he]
    exact .refl s
  have hedge := (clockEdge_running hr hu).trans (engineTurn_completes hp hl c u)
  exact ⟨_, (step_cons hin).trans (hedge.trans (completePending_legal hd _ u)), rfl, rfl,
    effectOf_sameHash i p.data hsame, effectOf_dataIn i p.data u, effectOf_target i p.data u⟩

/-- A busy engine refuses a write to CMD or a BLOCKk with ERR_BUSY, and nothing of it is stored. -/
theorem busAccess_refused_busy {c : Cycle} {s : State} (hb : s.busy = true) (hs : c.sel = true) (hw : c.we = true)
    (hreg : regAt c.addr = .cmd ∨ ∃ k, regAt c.addr = .block k) :
    busAccess c s = .next ((s.beginEdge c).raise .busy) := by
  rw [busAccess_write s hs hw]
  obtain hcmd | ⟨k, hblock⟩ := hreg
  · rw [hcmd]
    exact memWrite_cmd_busy c.wdata hb
  · rw [hblock]
    exact memWrite_block_busy k c.wdata hb

/-- Settles O39: `step_completes` after a refused access, and after one that is no write. -/
theorem completionEdgeRefusesAWrite : Obligations.CompletionEdgeRefusesAWrite := by
  intro s c rest p i hin hr hp hl hd
  refine ⟨fun hs hw hreg hi => ?_, fun hquiet => ?_⟩
  · have hu := busAccess_refused_busy (s := { s with inputs := rest }) (busy_of_pending hp) hs hw hreg
    obtain ⟨t, ht, hnone, herr, ⟨hH, hbuf, hfill, hlen, hphase⟩, hdata, htarget⟩ := step_completes hin hr hp hl hd hu
    rw [completionErrors_of_ne_init hi] at herr
    exact ⟨t, ht, hnone, herr, hH, hbuf, hfill, hlen, hphase, hdata, htarget⟩
  · obtain ⟨w, hu⟩ := busAccess_quiet hquiet { s with inputs := rest }
    obtain ⟨t, ht, hnone, herr, ⟨hH, hbuf, hfill, hlen, hphase⟩, hdata, htarget⟩ := step_completes hin hr hp hl hd hu
    rw [busyEdgeError_quiet hquiet] at herr
    refine ⟨t, ht, hnone, fun hi => ?_, fun hi => ?_, hH, hbuf, hfill, hlen, hphase, hdata, htarget⟩
    · exact herr.trans (completionErrors_of_ne_init hi _ _)
    · subst hi
      exact herr

/-! ## Several engines (R241) -/

/-- An edge of engine `k` that answers is the edge of that engine, or nothing where there is no such engine. -/
theorem onEngine_inv {sys sys' : System} {k : Nat} {edge : State → Host.Outcome State Fault Refusal}
    (h : sys.onEngine k edge = .next sys') :
    (sys.engineAt k = none ∧ sys' = sys) ∨ ∃ e s, sys.engineAt k = some e ∧ edge e.state = .next s := by
  cases he : sys.engineAt k with
  | none =>
    simp only [System.onEngine, he] at h
    cases h
    exact .inl ⟨rfl, rfl⟩
  | some e =>
    cases hs : edge e.state with
    | next s => exact .inr ⟨e, s, rfl, hs⟩
    | fault f => simp [System.onEngine, he, hs] at h
    | refused r => simp [System.onEngine, he, hs] at h

theorem engineAt_map_base (sys : System) (j : Nat) :
    (sys.engineAt j).map Engine.base = (sys.engines.map Engine.base)[j]? := by
  rw [System.engineAt, Option.map_map, List.getElem?_map]
  rfl

/-- Settles O55: `onEngine_next` says what an engine's edge replaces, and each engine draws from the stream of its number. -/
theorem enginesShareNothing : Obligations.EnginesShareNothing := by
  refine ⟨fun sys sys' k h => ?_, fun sys j k e f hjk he hf hdraws => hjk ?_⟩
  · obtain ⟨hnone, rfl⟩ | ⟨e, s, he, hs⟩ := onEngine_inv h
    · exact ⟨rfl, fun _ _ => rfl, fun _ => rfl, fun e he => (nomatch hnone.symm.trans he), id⟩
    · have hstream : s.draws.stream = e.state.draws.stream := by rw [step_draws hs, draw_next_stream]
      obtain ⟨sys'', hsys, hbases, hself, hothers⟩ := onEngine_next he hs hstream
      cases h.symm.trans hsys
      refine ⟨?_, hothers, fun j => ?_, fun e' he' => ?_, wf_of_bases hbases⟩
      · simpa [System.count] using congrArg List.length hbases
      · rw [engineAt_map_base, engineAt_map_base, hbases]
      · cases he.symm.trans he'
        exact ⟨s, hs, hself⟩
  · rw [← engineAt_stream he, ← engineAt_stream hf, hdraws]

end Sys2Proof.Machine

/-! # Reset and the latency of a command (70_reset_and_hazards.md)

A pending command waits out the edges it has left and completes at the last of them; what issuing a command and a reset leave. -/

namespace Sys2Proof.Machine

/-! ## The edges of a pending command (R260, R261) -/

/-- The edge the next step takes: the one to come, or one without access where none is left (log entry 7). -/
def State.nextEdge (s : State) : Cycle := s.inputs.headD (idleCycle s.lat)

/-- The state with the edge of its next step written out at the head of its inputs. -/
def State.withNextEdge (s : State) : State := { s with inputs := s.nextEdge :: s.inputs.tail }

theorem step_withNextEdge (s : State) : step s.withNextEdge = step s := (step_eq_clockEdge s).symm

theorem sameHash_withNextEdge (s : State) : SameHash s s.withNextEdge := ⟨rfl, rfl, rfl, rfl, rfl⟩

/-- An edge before the last one brings the pending command one edge nearer, whatever the host does at it. -/
theorem step_waits {s : State} {p : Pending} (hp : s.pending = some p) (hl : 1 < p.left)
    (hr : s.nextEdge.rstN = true) :
    ∃ t, step s = .next t ∧ t.pending = some { p with left := p.left - 1 } ∧ t.inputs = s.inputs.tail ∧ SameHash s t := by
  rw [← step_withNextEdge]
  obtain ⟨t, ht, hpending, hH, hbuf, hfill, hlen, hphase, -⟩ :=
    busyEdgesKeepTheEngineRegisters s.withNextEdge s.nextEdge s.inputs.tail p rfl hr hp hl
  obtain ⟨t', ht', hin, -⟩ :=
    busyEdgesTakeDataInAndTargetWrites s.withNextEdge s.nextEdge s.inputs.tail p rfl hr hp (.inl hl)
  cases ht.symm.trans ht'
  exact ⟨t, ht, hpending, hin, (sameHash_withNextEdge s).trans ⟨hH, hbuf, hfill, hlen, hphase⟩⟩

/-- The access of the edge is a write that a busy engine refuses with the error bit `b` (R222, R225). -/
def RefusedWith (b : ErrBit) (c : Cycle) : Prop :=
  c.sel = true ∧ c.we = true ∧
    ((b = .busy ∧ (regAt c.addr = .cmd ∨ ∃ k, regAt c.addr = .block k)) ∨
      (b = .target ∧ regAt c.addr = .target ∧ 256 < c.wdata.toNat))

/-- An edge without access refuses nothing: only an edge of the host's can. -/
theorem RefusedWith.head?_inputs {b : ErrBit} {s : State} (h : RefusedWith b s.nextEdge) :
    ∃ c, s.inputs.head? = some c ∧ RefusedWith b c := by
  unfold State.nextEdge at h
  cases hin : s.inputs with
  | nil =>
    rw [hin] at h
    cases h.1
  | cons c cs =>
    rw [hin] at h
    exact ⟨c, rfl, h⟩

/-- At the last edge the command has its effect on the registers of the hash, and after an INIT only the error of a write
refused at that very edge can stand (log entry 4). -/
theorem step_ends {s : State} {p : Pending} {i : Instr} (hp : s.pending = some p) (hl : p.left ≤ 1)
    (hd : decode p.cmd = .ok i) (hr : s.nextEdge.rstN = true) :
    ∃ t, step s = .next t ∧ t.pending = none ∧ t.inputs = s.inputs.tail ∧ SameHash (effectOf i p.data s) t ∧
      (i = .init → ∀ b, t.err.get b = true → ∃ c, s.inputs.head? = some c ∧ RefusedWith b c) := by
  rw [← step_withNextEdge]
  have hin : s.withNextEdge.inputs = s.nextEdge :: s.inputs.tail := rfl
  obtain ⟨u, hu, -⟩ := busAccess_next s.nextEdge { s.withNextEdge with inputs := s.inputs.tail }
  obtain ⟨t, ht, hnone, -, hhash, -⟩ := step_completes hin hr hp hl hd hu
  obtain ⟨t', ht', hinputs, -⟩ := busyEdgesTakeDataInAndTargetWrites _ _ _ p hin hr hp (.inr ⟨i, hd⟩)
  cases ht.symm.trans ht'
  refine ⟨t, ht, hnone, hinputs, (effectOf_sameHash i p.data (sameHash_withNextEdge s)).trans hhash, fun hi b hb => ?_⟩
  subst hi
  obtain ⟨t', ht', hrefused⟩ := step_completes_init hin hr hp hl hd
  cases ht.symm.trans ht'
  exact RefusedWith.head?_inputs (hrefused b hb)

/-! ## The whole latency (R260) -/

/-- With no reset at the next `n + 1` edges there is none at the next one and none at the `n` after it. -/
theorem no_reset_succ {s : State} {n : Nat} (h : ∀ c ∈ s.inputs.take (n + 1), c.rstN = true) :
    s.nextEdge.rstN = true ∧ ∀ c ∈ s.inputs.tail.take n, c.rstN = true := by
  unfold State.nextEdge
  cases hin : s.inputs with
  | nil => exact ⟨rfl, by simp⟩
  | cons c cs =>
    rw [hin] at h
    exact List.forall_mem_cons.1 h

theorem no_reset_mono {cs : List Cycle} {m n : Nat} (h : ∀ c ∈ cs.take n, c.rstN = true) (hmn : m ≤ n) :
    ∀ c ∈ cs.take m, c.rstN = true :=
  fun c hc => h c ((List.take_sublist_take_left hmn).mem hc)

/-- After fewer edges than it has left a command is still pending, and the registers of the hash are as they were. -/
theorem run_waits (n : Nat) {s : State} {p : Pending} (hp : s.pending = some p) (hl : n < p.left)
    (hr : ∀ c ∈ s.inputs.take n, c.rstN = true) :
    ∃ t : State, Sys2Proof.core.run n s = .next t ∧ t.pending = some { p with left := p.left - n } ∧
      t.inputs = s.inputs.drop n ∧ SameHash s t := by
  induction n generalizing s p with
  | zero => exact ⟨s, rfl, hp, rfl, .refl s⟩
  | succ n ih =>
    obtain ⟨hhead, htail⟩ := no_reset_succ hr
    obtain ⟨t, ht, hpending, hin, hsame⟩ := step_waits hp (by omega) hhead
    obtain ⟨u, hu, hpending', hin', hsame'⟩ := ih hpending (by simp only; omega) (by rwa [hin])
    refine ⟨u, (run_succ ht n).trans hu, ?_, ?_, hsame.trans hsame'⟩
    · rw [hpending', Nat.sub_sub, Nat.add_comm 1 n]
    · rw [hin', hin, List.drop_tail]

/-- At the last of the edges it has left a command completes (R260). -/
theorem run_completes {s : State} {p : Pending} {i : Instr} (hp : s.pending = some p) (h1 : 1 ≤ p.left)
    (hd : decode p.cmd = .ok i) (hr : ∀ c ∈ s.inputs.take p.left, c.rstN = true) :
    ∃ u : State, Sys2Proof.core.run p.left s = .next u ∧ u.pending = none ∧ u.inputs = s.inputs.drop p.left ∧
      SameHash (effectOf i p.data s) u ∧
      (i = .init → ∀ b, u.err.get b = true → ∃ c, s.inputs[p.left - 1]? = some c ∧ RefusedWith b c) := by
  obtain ⟨n, hn⟩ := Nat.exists_eq_add_of_le' h1
  rw [hn] at hr ⊢
  obtain ⟨t, ht, hpending, hin, hsame⟩ := run_waits n hp (by omega) (no_reset_mono hr n.le_succ)
  have hnext : t.nextEdge.rstN = true := by
    refine (no_reset_succ (n := 0) fun c hc => hr c ?_).1
    rw [hin, List.take_drop] at hc
    exact List.mem_of_mem_drop hc
  obtain ⟨u, hu, hnone, hin', hhash, hinit⟩ := step_ends hpending (by simp only; omega) hd hnext
  refine ⟨u, (run_add n 1 ht).trans (run_one hu), hnone, ?_, (effectOf_sameHash i p.data hsame).trans hhash, ?_⟩
  · rw [hin', hin, List.tail_drop]
  · rwa [hin, List.head?_drop] at hinit

/-- Settles O43: `run_waits` before the last edge and `run_completes` at it; the invariant says that the word is legal. -/
theorem pendingCommandEndsInBoundedTime : Obligations.PendingCommandEndsInBoundedTime := by
  intro s p hinv hp hr
  obtain ⟨hleft, i, hd, -⟩ := hinv.pending_sound p hp
  refine ⟨?_, fun n hn => ?_⟩
  · obtain ⟨t, ht, hnone, -⟩ := run_completes hp hleft hd hr
    exact ⟨t, ht, (busy_eq_false_iff t).2 hnone⟩
  · obtain ⟨t, ht, hpending, -⟩ := run_waits n hp hn (no_reset_mono hr hn.le)
    exact ⟨t, ht, busy_of_pending hpending⟩

/-! ## From the issue of a command to its end (R160, R230, R260, R261) -/

/-- `u` is what a command issued in `s` leaves after the edges `cs` of its latency. -/
structure Completed (i : Instr) (s : State) (cs : List Cycle) (u : State) : Prop where
  pending : u.pending = none
  hash : SameHash (effectOf i s.dataIn s) u
  quiet : (∀ c ∈ cs, ¬ (c.sel = true ∧ c.we = true)) → Agrees (effectOf i s.dataIn s) none u
  init : i = .init → ∀ b, u.err.get b = true → ∃ c, cs.getLast? = some c ∧ RefusedWith b c

/-- With latency 0 the effect itself is what the command leaves. -/
theorem completed_at_issue {s t : State} (h : Agrees s none t) (i : Instr) :
    Completed i s [] (effectOf i s.dataIn t) where
  pending := (effectOf_pending i s.dataIn t).trans h.pending
  hash := effectOf_sameHash i s.dataIn h.hash
  quiet _ := h.effectOf i s.dataIn
  init hi b hset := by
    subst hi
    exact absurd hset (by simp [effectOf])

/-- A command pending since its issue in `s` completes with the edges of its latency, and no sooner. -/
theorem completed_after {s t : State} {p : Pending} {i : Instr} {cs rest : List Cycle} (h : Agrees s (some p) t)
    (hd : decode p.cmd = .ok i) (hdata : p.data = s.dataIn) (hleft : p.left = cs.length) (h1 : 1 ≤ p.left)
    (hin : t.inputs = cs ++ rest) (hr : ∀ c ∈ cs, c.rstN = true) :
    ∃ u : State, Sys2Proof.core.run cs.length t = .next u ∧ u.inputs = rest ∧ Completed i s cs u ∧
      ∀ n, n < cs.length → ∃ v : State, Sys2Proof.core.run n t = .next v ∧ v.busy = true := by
  have hreset : ∀ c ∈ t.inputs.take p.left, c.rstN = true := by rwa [hin, hleft, List.take_left]
  have hlast : t.inputs[p.left - 1]? = cs.getLast? := by
    rw [hin, List.getElem?_append_left (by omega), List.getLast?_eq_getElem?, hleft]
  obtain ⟨u, hu, hnone, hinputs, hhash, hinit⟩ := run_completes h.pending h1 hd hreset
  rw [hlast] at hinit
  rw [← hleft]
  refine ⟨u, hu, by rw [hinputs, hin, hleft, List.drop_left], ?_, fun n hn => ?_⟩
  · refine ⟨hnone, ?_, fun hq => ?_, hinit⟩ <;> rw [← hdata]
    · exact (effectOf_sameHash i p.data h.hash).trans hhash
    · obtain ⟨u', hu', -, hagree⟩ :=
        leads_completion (fun c hc => quiet_iff.2 ⟨hr c hc, hq c hc⟩) s h1 hleft.le hd t rest h hin
      cases hu.symm.trans (hleft ▸ hu')
      exact hagree
  · obtain ⟨v, hv, hpending, -⟩ := run_waits n h.pending hn (no_reset_mono hreset hn.le)
    exact ⟨v, hv, busy_of_pending hpending⟩

/-- Where every bit still set is that of a write refused at the last edge, ERR_ILLEGAL, ERR_SEQ and ERR_LEN are clear, and so
are ERR_BUSY and ERR_TARGET unless that edge carries such a write. -/
theorem errors_clear_of_refusedWith {e : Errors} {last : Option Cycle}
    (h : ∀ b, e.get b = true → ∃ c, last = some c ∧ RefusedWith b c) :
    e.illegal = false ∧ e.seq = false ∧ e.len = false ∧
      ((∀ c, last = some c →
        ¬ (c.sel = true ∧ c.we = true ∧ (regAt c.addr = .cmd ∨ ∃ k, regAt c.addr = .block k))) → e.busy = false) ∧
      ((∀ c, last = some c →
        ¬ (c.sel = true ∧ c.we = true ∧ regAt c.addr = .target ∧ 256 < c.wdata.toNat)) → e.target = false) := by
  have hclear (b : ErrBit) (hb : ∀ c, last = some c → ¬ RefusedWith b c) : e.get b = false :=
    Bool.eq_false_iff.2 fun hset => by
      obtain ⟨c, hc, hrefused⟩ := h b hset
      exact hb c hc hrefused
  refine ⟨hclear .illegal fun c _ => ?_, hclear .seq fun c _ => ?_, hclear .len fun c _ => ?_,
    fun hnone => hclear .busy fun c hc => ?_, fun hnone => hclear .target fun c hc => ?_⟩
  · simp [RefusedWith]
  · simp [RefusedWith]
  · simp [RefusedWith]
  · simpa [RefusedWith] using hnone c hc
  · simpa [RefusedWith] using hnone c hc

/-- A command that passes its checks is issued, and complete after the edges of its latency and at none before. -/
theorem issued_completes {s s' : State} {i : Instr} {cs rest : List Cycle} (hwf : i.wellFormed = true)
    (h : Agrees s none s') (hcheck : checkOf i s' = none) (hlen : cs.length = s'.lat.of i)
    (hin : s'.inputs = cs ++ rest) (hr : ∀ c ∈ cs, c.rstN = true) :
    ∃ t u : State, exec i s' = .next t ∧ Sys2Proof.core.run cs.length t = .next u ∧ u.inputs = rest ∧
      Completed i s cs u ∧ ∀ n, n < cs.length → ∃ v : State, Sys2Proof.core.run n t = .next v ∧ v.busy = true := by
  by_cases hl : s'.lat.of i = 0
  · obtain rfl := List.eq_nil_of_length_eq_zero (hlen.trans hl)
    refine ⟨_, _, exec_completes hcheck hl, rfl, (effectOf_inputs ..).trans hin, ?_, nofun⟩
    rw [h.dataIn]
    exact completed_at_issue h i
  · have hpending := h.withPending (some { cmd := encode i, data := s.dataIn, left := cs.length })
    obtain ⟨u, hu, hinputs, hdone, hwaits⟩ :=
      completed_after hpending (decode_encode hwf) rfl rfl (by simp only; omega) hin hr
    refine ⟨_, u, ?_, hu, hinputs, hdone, hwaits⟩
    rw [exec_pends hcheck hl, h.dataIn, hlen]

/-- Settles O29, by `issued_completes`; what comes after the latency's edges is no part of the check or of the effect. -/
theorem commandCompletesAfterItsLatency : Obligations.CommandCompletesAfterItsLatency := by
  intro s i cs rest hwf hb hcheck hlen hr
  have hagree : Agrees s none { s with inputs := cs ++ rest } :=
    ⟨.refl s, rfl, rfl, rfl, (busy_eq_false_iff s).1 hb⟩
  have hpass : checkOf i { s with inputs := cs ++ rest } = none := by
    rw [← hcheck]
    exact checkOf_congr i rfl rfl rfl rfl
  obtain ⟨t, u, ht, hu, hin, hdone, hwaits⟩ := issued_completes hwf hagree hpass hlen rfl hr
  obtain ⟨hH, hbuf, hfill, hmsg, hphase⟩ := hdone.hash
  refine ⟨t, u, ht, hu, hwaits, (busy_eq_false_iff u).2 hdone.pending, hin, hH, hbuf, hfill, hmsg, hphase, fun hq => ?_,
    fun hi => errors_clear_of_refusedWith (hdone.init hi)⟩
  have hquiet := hdone.quiet hq
  exact ⟨hquiet.dataIn.trans (effectOf_dataIn ..), hquiet.target.trans (effectOf_target ..), hquiet.err⟩

/-! ## Issue (R260) -/

theorem checkOf_passes {i : Instr} {s : State} (hwf : i.wellFormed = true) (hb : s.busy = false)
    (hphase : i ≠ .init → s.phase = .absorb) (hblock : i = .compress → s.bufFill = 0 ∧ s.msgLen.toNat + 512 < 2 ^ 64)
    (hbytes : ∀ n, i = .absorb n → s.msgLen.toNat + 8 * n.toNat < 2 ^ 64) : checkOf i s = none := by
  cases i with
  | init => exact checkInit_passes hb
  | absorb n =>
    obtain ⟨h1, h4⟩ := of_decide_eq_true hwf
    exact checkAbsorb_passes hb h1 h4 (hphase nofun) (hbytes n rfl)
  | compress =>
    obtain ⟨hfill, hlen⟩ := hblock rfl
    exact checkCompress_passes hb (hphase nofun) hfill hlen
  | finalize => exact checkFinalize_passes hb (hphase nofun)

/-- Settles O28, by `exec_pends`; a busy engine's STATUS reads BUSY exactly. -/
theorem issuedCommandIsPending : Obligations.IssuedCommandIsPending := by
  intro s i hwf hb hphase hblock hbytes hl
  exact ⟨_, exec_pends (checkOf_passes hwf hb hphase hblock hbytes) hl, rfl, (busyReadsFixOnlyTheExactFields _ rfl).1⟩

/-! ## Reset (R250 to R252) -/

theorem blockWord_zeros (k : Fin 16) : blockWord (Vector.replicate 64 0#8) k = 0#32 := by
  revert k
  decide

/-- After a reset edge every register but LZC and the digest words reads 0 (R251). -/
theorem memRead_resetEdge_zero (s : State) (c : Cycle) {r : Reg} (hlzc : r ≠ .lzc) (hdigest : ∀ i, r ≠ .digest i) :
    memRead r (s.resetEdge c) = 0#32 := by
  have hb := resetEdge_busy s c
  cases r with
  | lzc => exact absurd rfl hlzc
  | digest i => exact absurd rfl (hdigest i)
  | status => exact statusRead_cleared hb rfl rfl rfl
  | block k => exact (memRead_block_idle hb k).trans (blockWord_zeros k)
  | msglenLo | msglenHi => exact (ownedRead_idle hb _ _).trans (by simp)
  | cmd | dataIn | target | reserved => rfl

/-- Settles O41: the edge answers `State.resetEdge`, and its reads are those of an idle engine. -/
theorem resetEdgeSetsEveryRegister : Obligations.ResetEdgeSetsEveryRegister := by
  intro s c rest hin hr
  have hb := resetEdge_busy { s with inputs := rest } c
  refine ⟨_, (step_cons hin).trans (clockEdge_reset _ hr), rfl, rfl, rfl, rfl, rfl, rfl, rfl, rfl, rfl, rfl, rfl, rfl, rfl,
    memRead_resetEdge_zero _ c nofun nofun, ?_, fun i => ownedRead_idle hb _ _, fun r => memRead_resetEdge_zero _ c⟩
  exact (ownedRead_idle hb _ _).trans (congrArg (BitVec.ofNat 32) lzc_iv)

/-- Settles O42: an INIT of latency 0 is complete at its issue, and `effectInit` sets what the reset sets but for the three. -/
theorem resetEqualsInitButForKeptRegisters : Obligations.ResetEqualsInitButForKeptRegisters := by
  intro s hb hl
  exact ⟨_, exec_completes (checkInit_passes hb) hl, rfl, rfl, rfl, rfl, rfl, (busy_eq_false_iff s).1 hb, rfl, rfl, rfl⟩

end Sys2Proof.Machine
